-- ==== Sys2Proof/Word.lean ====
section
/-! DEFINITION. The word types of QCPU (spec/00_scope.md R3, R5): bytes, ROM words, program-counter values,
register numbers. -/

namespace Sys2Proof

/-- An 8-bit register, RAM or IO value (R3: XLEN = 8). -/
abbrev Byte := BitVec 8

/-- A 16-bit ROM word, instruction word or 16-bit IO register (R3: ILEN = 16). -/
abbrev Word := BitVec 16

/-- A 14-bit word address, the width of PC (R3: PCW = 14). -/
abbrev CodeAddr := BitVec 14

/-- The number of a general register, r0 to r15 (R20). -/
abbrev RegIdx := Fin 16

end Sys2Proof
end

