-- ==== Sys2Proof/Config.lean ====
section
/-! DEFINITION. What is fixed for one machine and never changes while it runs: the sizes of R3, the alternatives of R4 that
the model names, and the FREE VALUES (opaque constants: no proof can see what they are). The values the spec decides for
the alternatives stand in Sys2Proof/Machine/Params.lean. -/

namespace Sys2Proof.Config

/-- DMEM_BYTES: "The internal 64 bytes of RAM ... are used as data memory" (R3, R50). -/
def dmemBytes : Nat := 64

/-- ROM_WORDS (R4, D14): program ROM is total on 2^16 word addresses, of which PC reaches the first 2^14. -/
def romWords : Nat := 65536

/-- The flash bytes the ROM words occupy: two for each word (R54). -/
def flashBytes : Nat := 2 * romWords

/-- JUMP_ADDR_BITS (R4, D1): the width of the Jump address. UNVERIFIED, log entry 1. -/
abbrev jumpAddrBits : Nat := 14

/-- BRANCH_IMM_BITS (R4, D1, D9): the width of the Conditional Branch offset. UNVERIFIED, log entry 1. -/
abbrev branchImmBits : Nat := 10

/-- LDST_BASE_BITS (R4, D1): the width of the Load and Store base address. UNVERIFIED, log entry 1. -/
abbrev ldstBaseBits : Nat := 6

/-- LAYOUT (R4): what the source's lost diagrams would fix. The formats are told apart by w[15:14] or, where that is 00 in the
layout decided, by w[15:12]; each field is given by its lowest bit (its width is the operand's). -/
structure Layout where
  /-- w[15:14] of Jump. -/
  jump : BitVec 2
  /-- w[15:14] of Store. -/
  store : BitVec 2
  /-- w[15:14] of Load. -/
  load : BitVec 2
  /-- w[15:12] of Immediate. -/
  immediate : BitVec 4
  /-- w[15:12] of Reg/Reg, and so of EXT. -/
  regReg : BitVec 4
  /-- w[15:12] of Conditional Branch. -/
  branch : BitVec 4
  /-- Jump: the address. -/
  address : Nat
  /-- Load and Store: the base address. -/
  base : Nat
  /-- Load and Store: the data register. -/
  data : Nat
  /-- Load and Store: the index register. -/
  index : Nat
  /-- Immediate: the target register. -/
  target : Nat
  /-- Immediate: the immediate. -/
  imm : Nat
  /-- Reg/Reg: the operation opcode. -/
  opcode : Nat
  /-- Reg/Reg: the R1 field. -/
  r1 : Nat
  /-- Reg/Reg: the R2 field. -/
  r2 : Nat
  /-- EXT: the operand slot (D2). -/
  extOperand : Nat
  /-- EXT: the EXT opcode (D2). -/
  extOpcode : Nat
  /-- Conditional Branch: the condition code. -/
  cond : Nat
  /-- Conditional Branch: the offset. -/
  offset : Nat
  deriving DecidableEq, Repr

/-- Free value, one fresh byte for each draw number: a PINx bit of a pin configured as an output (R204, D29, U5), the
surviving half of GETPC with one register in both slots (D10, U10), a read of SDR while the port is busy, a read of a write-trigger
(R214, R215), the byte an SPI transfer receives (R210). DESIGN CHOICE, safe, log entries 5, 18, 20, 33, 35. -/
opaque freeByte : Nat → Byte

/-- Free value, one fresh bit for each draw number: whether a write of TDIV or a timer load resets the prescaler phase
(R215: "not stated"; N23). DESIGN CHOICE, safe, log entry 21. -/
opaque freeBit : Nat → Bool

/-- Free value, one number for each draw number: how many CPU turns pass, when no agenda says otherwise, before a busy serial port
has finished (R206: "some time later", "eventually clears"). DESIGN CHOICE, safe, log entry 33. -/
opaque freeDelay : Nat → Nat

/-- Free value, one byte for each flash byte address the loaded image does not define (U19: "any value"). DESIGN CHOICE, safe, log entry 8. -/
opaque unprogrammedFlash : Nat → Byte

/-- DMEM_OOB (R4, D12): what a data address of 64 or more does. -/
inductive OutOfRangePolicy where
  | refuse
  | wrap64
  deriving DecidableEq, Repr

end Sys2Proof.Config
end

