-- ==== Sys2Proof/Machine/Params.lean ====
section
/-! DEFINITION. The values the spec decides for the alternatives of R4 that the model names; a claim that rests on one names it. -/

namespace Sys2Proof.Machine.Params

/-- LAYOUT (D1, D2; the table of R82). UNVERIFIED, log entry 1. -/
def layout : Config.Layout :=
  { jump := 0b11, store := 0b10, load := 0b01
    immediate := 0b0000, regReg := 0b0001, branch := 0b0010
    address := 0
    base := 8, data := 4, index := 0
    target := 8, imm := 0
    opcode := 8, r1 := 4, r2 := 0
    extOperand := 4, extOpcode := 0
    cond := 10, offset := 0 }

/-- BRANCH_BIAS (D9): a taken branch goes to PC + BRANCH_BIAS + offset. UNVERIFIED, log entry 4. -/
def branchBias : CodeAddr := 0

/-- PC_REF (D8): how far "PC" inside an instruction lies past that instruction's own word address. UNVERIFIED, log entry 4. -/
def pcRef : CodeAddr := 0

/-- SUB_CARRY (D7): whether C after a subtraction is the carry out, 1 when there is no borrow. UNVERIFIED, log entry 3. -/
def subCarryIsNoBorrow : Bool := true

/-- FLAG_POLICY (D6), by class: whether additions and subtractions write C and Z, and whether logic operations, shifts and
rotates write Z. UNVERIFIED, log entry 3. -/
def arithmeticWritesCZ : Bool := true
def logicWritesZ : Bool := true
def shiftWritesZ : Bool := true
def rotateWritesZ : Bool := true

/-- MUL_SIGNED (D13). UNVERIFIED, log entry 9. -/
def mulSigned : Bool := false

/-- MUL_HIGH_REG (D13), and the literal register that gets the low byte. UNVERIFIED, log entry 9. -/
def mulHighReg : RegIdx := 2
def mulLowReg : RegIdx := 1

/-- LPM_ADDR_BITS (D14): how many bits of {r3, r2} address program ROM. UNVERIFIED, log entry 8. -/
def lpmAddrBits : Nat := 16

/-- IOPAIR_ORDER (D20): whether the lower IO address of a 16-bit register is its low byte. UNVERIFIED, log entry 16. -/
def ioPairLowFirst : Bool := true

/-- DMEM_OOB (D12). DESIGN CHOICE, log entry 6. -/
def dmemOob : Config.OutOfRangePolicy := .refuse

/-- IRQ_LATCH_WHEN_DISABLED (D16): whether an event is remembered while its enable bit is 0. UNVERIFIED, log entry 13. -/
def irqLatchWhenDisabled : Bool := false

/-- FLAGS_BITS (D5): the bit numbers of C, Z, IE, TIE in the byte RDF reads and WRF writes. UNVERIFIED, log entry 3. -/
def cBit : Nat := 0
def zBit : Nat := 1
def ieBit : Nat := 2
def tieBit : Nat := 3

/-- STAT_BITS (D21): the bit numbers of UBUSY, SBUSY, UHB in STAT. UNVERIFIED, log entry 16. -/
def ubusyBit : Nat := 0
def sbusyBit : Nat := 1
def uhbBit : Nat := 2

end Sys2Proof.Machine.Params
end

