-- ==== Sys2Proof/Syntax.lean ====
section
/-! DEFINITION. The 40 instructions of spec/opcode_table.json, one constructor each, in the table's order. Operands are what
the fields mean: register numbers, immediates. The operand slot that WAIT, RETI and LPM ignore (R92, D4) is no operand. -/

namespace Sys2Proof

inductive Instr where
  | ldi (d : RegIdx) (imm : Byte)
  | ldioa (imm : Byte)
  | add (a b : RegIdx)
  | adc (a b : RegIdx)
  | sub (a b : RegIdx)
  | sbc (a b : RegIdx)
  | and (a b : RegIdx)
  | or (a b : RegIdx)
  | xor (a b : RegIdx)
  | not (a b : RegIdx)
  | addi (a : RegIdx) (imm : BitVec 4)
  | adci (a : RegIdx) (imm : BitVec 4)
  | subi (a : RegIdx) (imm : BitVec 4)
  | sbci (a : RegIdx) (imm : BitVec 4)
  | getpc (a b : RegIdx)
  | jmpr (a b : RegIdx)
  | cmp (a b : RegIdx)
  | jmp (addr : BitVec Config.jumpAddrBits)
  | bcc (off : BitVec Config.branchImmBits)
  | bcs (off : BitVec Config.branchImmBits)
  | bnz (off : BitVec Config.branchImmBits)
  | bz (off : BitVec Config.branchImmBits)
  | ld (d : RegIdx) (base : BitVec Config.ldstBaseBits) (idx : RegIdx)
  | st (src : RegIdx) (base : BitVec Config.ldstBaseBits) (idx : RegIdx)
  | lsr (a : RegIdx)
  | rrc (a : RegIdx)
  | lsl (a : RegIdx)
  | rlc (a : RegIdx)
  | ror (a : RegIdx)
  | rol (a : RegIdx)
  | stioa (a : RegIdx)
  | out (a : RegIdx)
  | inp (a : RegIdx)
  | cmpi (imm : BitVec 4)
  | wait
  | reti
  | mul (a : RegIdx)
  | rdf (a : RegIdx)
  | wrf (a : RegIdx)
  | lpm
  deriving DecidableEq, Repr

end Sys2Proof
end

