-- ==== Sys2Proof/WellFormed.lean ====
section
/-! DEFINITION. Which terms of Instr are instructions. Field widths are in the types; the one check left is the table's
constraint on LDI, "d != 0 (d = 0 is LDIOA)" (R83, R110). -/

namespace Sys2Proof

/-- The Immediate format with register field 0 is another instruction, LDIOA (R83). -/
def ldiTargetOk (d : RegIdx) : Bool := d != 0

/-- The instruction is one that some word encodes. -/
def Instr.wellFormed : Instr → Bool
  | .ldi d _ => ldiTargetOk d
  | .ldioa _ | .add _ _ | .adc _ _ | .sub _ _ | .sbc _ _ | .and _ _ | .or _ _ | .xor _ _ | .not _ _
  | .addi _ _ | .adci _ _ | .subi _ _ | .sbci _ _ | .getpc _ _ | .jmpr _ _ | .cmp _ _ | .jmp _
  | .bcc _ | .bcs _ | .bnz _ | .bz _ | .ld _ _ _ | .st _ _ _
  | .lsr _ | .rrc _ | .lsl _ | .rlc _ | .ror _ | .rol _ | .stioa _ | .out _ | .inp _ | .cmpi _
  | .wait | .reti | .mul _ | .rdf _ | .wrf _ | .lpm => true

end Sys2Proof
end

