-- ==== Sys2Proof/Decode.lean ====
section
/-! DEFINITION. Decoding (spec/30_encoding.md R80 to R92, the layout of decision D1, D2, D4: UNVERIFIED, log entry 1) and, after it,
encoding. -/

namespace Sys2Proof

/-- Why bytes are no instruction. -/
inductive DecodeError where
  /-- Words 3000h to 3FFFh select no format (R91, D3). -/
  | undefinedEncoding (w : Word)
  /-- Fewer than the two bytes every instruction has (R80). -/
  | incomplete
  deriving DecidableEq, Repr

/-- ROM_BYTE_ORDER (R54, D15): whether a word's low byte is at the even flash byte address. UNVERIFIED, log entry 8. -/
def romLowByteFirst : Bool := true

/-- The word whose bytes stand at the even and the odd flash byte address (R54). -/
def wordOfBytes (even odd : Byte) : Word := if romLowByteFirst then odd ++ even else even ++ odd

/-- The byte of a word at its even flash byte address (R54). -/
def evenByte (w : Word) : Byte := if romLowByteFirst then w.extractLsb' 0 8 else w.extractLsb' 8 8

/-- The byte of a word at its odd flash byte address (R54). -/
def oddByte (w : Word) : Byte := if romLowByteFirst then w.extractLsb' 8 8 else w.extractLsb' 0 8

/-- The two bytes of a word as the flash holds them. -/
def bytesOfWord (w : Word) : List Byte := [evenByte w, oddByte w]

/-- The register a 4-bit field selects (R20). -/
def regOfBits (v : BitVec 4) : RegIdx := v.toFin

/-- EXT sub-format by its opcode slot (R85, R90). -/
def decodeExt (a e : BitVec 4) : Instr :=
  match (e.toFin : Fin 16) with
  | 0 => .lsr (regOfBits a)
  | 1 => .rrc (regOfBits a)
  | 2 => .lsl (regOfBits a)
  | 3 => .rlc (regOfBits a)
  | 4 => .ror (regOfBits a)
  | 5 => .rol (regOfBits a)
  | 6 => .stioa (regOfBits a)
  | 7 => .out (regOfBits a)
  | 8 => .inp (regOfBits a)
  | 9 => .cmpi a
  | 10 => .wait
  | 11 => .reti
  | 12 => .mul (regOfBits a)
  | 13 => .rdf (regOfBits a)
  | 14 => .wrf (regOfBits a)
  | 15 => .lpm
  | ⟨_ + 16, h⟩ => absurd h (by omega)

/-- Reg/Reg format by its operation opcode; opcode 15 is the EXT sub-format, whose reading of the word is `ext` (R84, R90). -/
def decodeRegReg (o a b : BitVec 4) (ext : Instr) : Instr :=
  match (o.toFin : Fin 16) with
  | 0 => .add (regOfBits a) (regOfBits b)
  | 1 => .adc (regOfBits a) (regOfBits b)
  | 2 => .sub (regOfBits a) (regOfBits b)
  | 3 => .sbc (regOfBits a) (regOfBits b)
  | 4 => .and (regOfBits a) (regOfBits b)
  | 5 => .or (regOfBits a) (regOfBits b)
  | 6 => .xor (regOfBits a) (regOfBits b)
  | 7 => .not (regOfBits a) (regOfBits b)
  | 8 => .addi (regOfBits a) b
  | 9 => .adci (regOfBits a) b
  | 10 => .subi (regOfBits a) b
  | 11 => .sbci (regOfBits a) b
  | 12 => .getpc (regOfBits a) (regOfBits b)
  | 13 => .jmpr (regOfBits a) (regOfBits b)
  | 14 => .cmp (regOfBits a) (regOfBits b)
  | 15 => ext
  | ⟨_ + 16, h⟩ => absurd h (by omega)

/-- Immediate format (R83): register field 0 is LDIOA. -/
def decodeImmediate (d : BitVec 4) (imm : Byte) : Instr :=
  if d = 0 then .ldioa imm else .ldi (regOfBits d) imm

/-- Conditional Branch format by its condition code (R87). -/
def decodeBranch (c : BitVec 2) (off : BitVec Config.branchImmBits) : Instr :=
  match (c.toFin : Fin 4) with
  | 0 => .bcc off
  | 1 => .bcs off
  | 2 => .bnz off
  | 3 => .bz off
  | ⟨_ + 4, h⟩ => absurd h (by omega)

/-- The Reg/Reg format and its EXT sub-format, under a layout (R84, R85). -/
def decodeRegRegIn (l : Config.Layout) (w : Word) : Instr :=
  decodeRegReg (w.extractLsb' l.opcode 4) (w.extractLsb' l.r1 4) (w.extractLsb' l.r2 4)
    (decodeExt (w.extractLsb' l.extOperand 4) (w.extractLsb' l.extOpcode 4))

/-- The formats told apart by w[15:12], under a layout (R90). -/
def decodeShortPrefix (l : Config.Layout) (w : Word) : Except DecodeError Instr :=
  if w.extractLsb' 12 4 = l.immediate then .ok (decodeImmediate (w.extractLsb' l.target 4) (w.extractLsb' l.imm 8))
  else if w.extractLsb' 12 4 = l.regReg then .ok (decodeRegRegIn l w)
  else if w.extractLsb' 12 4 = l.branch then
    .ok (decodeBranch (w.extractLsb' l.cond 2) (w.extractLsb' l.offset Config.branchImmBits))
  else .error (.undefinedEncoding w)

/-- The decode function of R90 under a layout, total on 16-bit words. -/
def decodeIn (l : Config.Layout) (w : Word) : Except DecodeError Instr :=
  if w.extractLsb' 14 2 = l.jump then .ok (.jmp (w.extractLsb' l.address Config.jumpAddrBits))
  else if w.extractLsb' 14 2 = l.store then
    .ok (.st (regOfBits (w.extractLsb' l.data 4)) (w.extractLsb' l.base Config.ldstBaseBits) (regOfBits (w.extractLsb' l.index 4)))
  else if w.extractLsb' 14 2 = l.load then
    .ok (.ld (regOfBits (w.extractLsb' l.data 4)) (w.extractLsb' l.base Config.ldstBaseBits) (regOfBits (w.extractLsb' l.index 4)))
  else decodeShortPrefix l w

/-- The decode function of R90. -/
def decode (w : Word) : Except DecodeError Instr := decodeIn Machine.Params.layout w

/-- Decoding from bytes as the flash holds them: one word, and the bytes after it (R80: no other length exists). -/
def decodeBytes : List Byte → Except DecodeError (Instr × List Byte)
  | even :: odd :: rest =>
    match decode (wordOfBytes even odd) with
    | .ok i => .ok (i, rest)
    | .error e => .error e
  | [_] => .error .incomplete
  | [] => .error .incomplete

/-- The instruction the decoder reads from a word of `nbits` bits numbered as spec/opcode_table.json numbers them. -/
def decodeTableWord (nbits w : Nat) : Option Instr :=
  match decodeBytes (bytesOfWord (BitVec.ofNat 16 (w % 2 ^ nbits))) with
  | .ok (i, _) => some i
  | .error _ => none

/-! Encoding. -/

/-- The 4-bit field that selects a register. -/
def bitsOfReg (r : RegIdx) : BitVec 4 := BitVec.ofFin r

/-- A field put into a word from its lowest bit on. -/
def place {n : Nat} (low : Nat) (v : BitVec n) : Word := v.setWidth 16 <<< low

/-- Reg/Reg words (R84). -/
def encodeRegReg (l : Config.Layout) (o a b : BitVec 4) : Word :=
  place 12 l.regReg ||| place l.opcode o ||| place l.r1 a ||| place l.r2 b

/-- EXT words: Reg/Reg opcode all ones (R85). -/
def encodeExt (l : Config.Layout) (a e : BitVec 4) : Word :=
  place 12 l.regReg ||| place l.opcode 0b1111#4 ||| place l.extOperand a ||| place l.extOpcode e

/-- Conditional Branch words (R87). -/
def encodeBranch (l : Config.Layout) (c : BitVec 2) (off : BitVec Config.branchImmBits) : Word :=
  place 12 l.branch ||| place l.cond c ||| place l.offset off

/-- Immediate words (R83). -/
def encodeImmediate (l : Config.Layout) (d : BitVec 4) (imm : Byte) : Word :=
  place 12 l.immediate ||| place l.target d ||| place l.imm imm

/-- Load and Store words, by their prefix (R88). -/
def encodeLoadStore (l : Config.Layout) (p : BitVec 2) (base : BitVec Config.ldstBaseBits) (r x : BitVec 4) : Word :=
  place 14 p ||| place l.base base ||| place l.data r ||| place l.index x

/-- Jump words (R86). -/
def encodeJump (l : Config.Layout) (addr : BitVec Config.jumpAddrBits) : Word := place 14 l.jump ||| place l.address addr

/-- The word of an instruction under a layout, ignored slots written as 0 (R82, R92, R93). -/
def encodeIn (l : Config.Layout) : Instr → Word
  | .ldi d imm => encodeImmediate l (bitsOfReg d) imm
  | .ldioa imm => encodeImmediate l 0 imm
  | .add a b => encodeRegReg l 0 (bitsOfReg a) (bitsOfReg b)
  | .adc a b => encodeRegReg l 1 (bitsOfReg a) (bitsOfReg b)
  | .sub a b => encodeRegReg l 2 (bitsOfReg a) (bitsOfReg b)
  | .sbc a b => encodeRegReg l 3 (bitsOfReg a) (bitsOfReg b)
  | .and a b => encodeRegReg l 4 (bitsOfReg a) (bitsOfReg b)
  | .or a b => encodeRegReg l 5 (bitsOfReg a) (bitsOfReg b)
  | .xor a b => encodeRegReg l 6 (bitsOfReg a) (bitsOfReg b)
  | .not a b => encodeRegReg l 7 (bitsOfReg a) (bitsOfReg b)
  | .addi a imm => encodeRegReg l 8 (bitsOfReg a) imm
  | .adci a imm => encodeRegReg l 9 (bitsOfReg a) imm
  | .subi a imm => encodeRegReg l 10 (bitsOfReg a) imm
  | .sbci a imm => encodeRegReg l 11 (bitsOfReg a) imm
  | .getpc a b => encodeRegReg l 12 (bitsOfReg a) (bitsOfReg b)
  | .jmpr a b => encodeRegReg l 13 (bitsOfReg a) (bitsOfReg b)
  | .cmp a b => encodeRegReg l 14 (bitsOfReg a) (bitsOfReg b)
  | .jmp addr => encodeJump l addr
  | .bcc off => encodeBranch l 0 off
  | .bcs off => encodeBranch l 1 off
  | .bnz off => encodeBranch l 2 off
  | .bz off => encodeBranch l 3 off
  | .ld d base idx => encodeLoadStore l l.load base (bitsOfReg d) (bitsOfReg idx)
  | .st src base idx => encodeLoadStore l l.store base (bitsOfReg src) (bitsOfReg idx)
  | .lsr a => encodeExt l (bitsOfReg a) 0
  | .rrc a => encodeExt l (bitsOfReg a) 1
  | .lsl a => encodeExt l (bitsOfReg a) 2
  | .rlc a => encodeExt l (bitsOfReg a) 3
  | .ror a => encodeExt l (bitsOfReg a) 4
  | .rol a => encodeExt l (bitsOfReg a) 5
  | .stioa a => encodeExt l (bitsOfReg a) 6
  | .out a => encodeExt l (bitsOfReg a) 7
  | .inp a => encodeExt l (bitsOfReg a) 8
  | .cmpi imm => encodeExt l imm 9
  | .wait => encodeExt l 0 10
  | .reti => encodeExt l 0 11
  | .mul a => encodeExt l (bitsOfReg a) 12
  | .rdf a => encodeExt l (bitsOfReg a) 13
  | .wrf a => encodeExt l (bitsOfReg a) 14
  | .lpm => encodeExt l 0 15

/-- The word of an instruction. -/
def encode (i : Instr) : Word := encodeIn Machine.Params.layout i

end Sys2Proof
end

