-- ==== Sys2Proof/Machine/State.lean ====
section
/-! DEFINITION. The machine's state: everything spec/10_state.md and spec/60_exceptions.md give it, as plain data, the reasons
a step can stop, and the state right after reset. Which reset values the spec states and which the model names is said at
each field of `State.reset` and in INVENTORY.md. -/

namespace Sys2Proof.Machine

/-- Bytes by address: addresses strictly rising, no address twice. An address that is not listed holds no value the
program or the loaded image has put there (log entries 7 and 8 say what reading it does). -/
abbrev Memory := List Host.Cell

/-- The FLAGS register: Carry, Zero, External Interrupt Enable, Timer Interrupt Enable (R26). -/
structure Flags where
  c : Bool
  z : Bool
  ie : Bool
  tie : Bool
  deriving DecidableEq, Repr

/-- The hidden backup registers BPC, BIOADDR, BFLAGS (R31). -/
structure Backup where
  pc : CodeAddr
  ioaddr : Byte
  flags : Flags
  deriving DecidableEq, Repr

/-- The IO device registers of R201 and the device state behind them (R34, R202 to R219). -/
structure IoRegs where
  /-- Data Direction Register A, IO 00h (R202). -/
  ddra : Byte
  /-- Port Data Register A, IO 01h (R203). -/
  porta : Byte
  /-- Data Direction Register B, IO 02h (R202). -/
  ddrb : Byte
  /-- Port Data Register B, IO 03h (R203). -/
  portb : Byte
  /-- UART Clock Divider, IO 06h and 07h (R205). -/
  udiv : Word
  /-- UART transmitter busy flag, STAT bit 0 (R206, R211). -/
  ubusy : Bool
  /-- The byte the UART transmitter owns (R206: "the UART transmitter agent now owns byte v"). -/
  utx : Byte
  /-- URX, the latest byte the UART received (R207, R208). -/
  urx : Byte
  /-- UHB: a received byte has not been read yet, STAT bit 2 (R208, R211). -/
  uhb : Bool
  /-- SPI Clock Divider, IO 0Ah (R209). -/
  sdiv : Byte
  /-- SPI busy flag, STAT bit 1 (R210, R211). -/
  sbusy : Bool
  /-- The byte the SPI agent owns (R210). -/
  stx : Byte
  /-- SRX, the byte the last SPI transfer received (R210). -/
  srx : Byte
  /-- Timer Clock Div, IO 0Ch (R212). -/
  tdiv : Byte
  /-- Prescaler phase: CPU clocks counted since the last timer tick (R217). -/
  prescale : Byte
  /-- Timer Capture Value, IO 0Eh and 0Fh (R213). -/
  tcapt : Word
  /-- The running TIMER, which has no IO address (R60, R217). -/
  timer : Word
  /-- Timer Top, IO 11h and 12h (R216). -/
  ttop : Word
  /-- Pulse Width, IO 13h (R218). -/
  pw : Byte
  /-- Frequency Divider, IO 14h and 15h (R219). -/
  fdiv : Word
  deriving DecidableEq, Repr

/-- The levels the outside world drives on the input pins (R34, R266); `true` is high. -/
structure Pins where
  /-- PA[7:0], where they are inputs (R204). -/
  pa : Byte
  /-- PB[7:0], where they are inputs (R204). -/
  pb : Byte
  /-- RXD, UART Serial Data In. -/
  rxd : Bool
  /-- SDI, SPI Master Port Serial Data In. -/
  sdi : Bool
  /-- INT, External interrupt request, negative edge triggered (R230). -/
  int : Bool
  /-- PAUSE, pauses CPU instruction execution while high (R244). -/
  pause : Bool
  /-- RSTD, Active low design reset (R260). -/
  rstd : Bool
  deriving DecidableEq, Repr

/-- The values a reset leaves unspecified (R262: "the model draws each from the outside world"). -/
structure Unspecified where
  regs : Vector Byte 15
  bak : Backup
  udiv : Word
  ubusy : Bool
  utx : Byte
  urx : Byte
  uhb : Bool
  sdiv : Byte
  sbusy : Bool
  stx : Byte
  srx : Byte
  tdiv : Byte
  prescale : Byte
  tcapt : Word
  timer : Word
  ttop : Word
  fdiv : Word
  deriving DecidableEq, Repr

/-- What an agent other than the CPU does (R200): a device finishing something, the outside world moving a pin. -/
inductive Event where
  /-- One CPU clock reaches the timer prescaler (R212, R217); `lateExpiry` is the outcome the spec leaves open when the
  tick finds TIMER larger than TTOP ("interrupt or not: not stated; the model allows either"). -/
  | timerClock (lateExpiry : Bool)
  /-- The UART transmitter has sent its byte (R206). -/
  | uartSent
  /-- A complete frame has arrived on RXD (R208). -/
  | uartReceived (b : Byte)
  /-- The SPI transfer is complete and this byte was received (R210). -/
  | spiDone (b : Byte)
  /-- The outside world drives PA (R204). -/
  | drivePA (v : Byte)
  /-- The outside world drives PB (R204). -/
  | drivePB (v : Byte)
  /-- Level on RXD. -/
  | driveRXD (level : Bool)
  /-- Level on SDI. -/
  | driveSDI (level : Bool)
  /-- Level on INT (R230). -/
  | driveINT (level : Bool)
  /-- Level on PAUSE (R244). -/
  | drivePAUSE (level : Bool)
  /-- RSTD goes low: the design is in reset; `u` are the values the reset leaves unspecified (R260, R262). -/
  | assertRSTD (u : Unspecified)
  /-- RSTD goes high: the CPU starts executing (R260). -/
  | releaseRSTD
  deriving DecidableEq, Repr

/-- Whose move it is: the CPU's, or another agent's. -/
inductive Turn where
  | cpu
  | event (e : Event)
  deriving DecidableEq, Repr

/-- The whole state. -/
structure State where
  /-- r1 to r15; r0 is hardwired to zero and has no storage (R20, R21). -/
  regs : Vector Byte 15
  /-- The 14-bit Program Counter, a word address (R23). -/
  pc : CodeAddr
  /-- The 8-bit IO Address (R29). -/
  ioaddr : Byte
  /-- CPU flags (R26). -/
  flags : Flags
  /-- BPC, BIOADDR, BFLAGS (R31). -/
  bak : Backup
  /-- PEND_T, the timer's request latch (R32). -/
  pendT : Bool
  /-- PEND_E, the external request latch (R32). -/
  pendE : Bool
  /-- WAITING: set by WAIT (R33). -/
  waiting : Bool
  /-- IN_HANDLER, the ghost bit of R38. -/
  inHandler : Bool
  /-- Data memory, 64 bytes (R50). -/
  ram : Memory
  /-- The external flash that is program ROM, by flash byte address (R53, R54). In State by DESIGN CHOICE, log entry 8. -/
  flash : Memory
  /-- IO device registers and device state (R34, R201). -/
  io : IoRegs
  /-- Input pin levels (R34). -/
  pins : Pins
  /-- Bytes the UART has sent on TXD, oldest first (R206). -/
  uartOut : List Byte
  /-- Bytes the SPI port has sent on SDO, oldest first (R210). -/
  spiOut : List Byte
  /-- Bytes handed to the UART transmitter by writes of UDR, oldest first: an output of the machine (R206, R268). No reset takes one
  back. -/
  uartHanded : List Byte
  /-- Bytes handed to the SPI port by writes of SDR, oldest first: an output of the machine (R210, R268). No reset takes one back. -/
  spiHanded : List Byte
  /-- The command bytes sent to the flash between reset and the first fetch (R264). -/
  flashStartup : List Byte
  /-- The model's own: whose turn each coming step is; when it is empty, the CPU's, but that a busy serial port then finishes after
  a free number of CPU turns. DESIGN CHOICE, log entries 15, 33. -/
  agenda : List Turn
  /-- The model's own: how many free values have been drawn. DESIGN CHOICE, log entry 26. -/
  draws : Nat
  deriving DecidableEq, Repr

/-- A hardware fault. QCPU has none: "The source describes no synchronous exception of any kind" (R241), so no step ends
in a fault and the type is empty. DEDUCED, log entry 31. -/
inductive Fault where
  deriving DecidableEq, Repr

/-- Why the model stops instead of computing a value (R7 `refuse`): points where the spec gives the hardware no effect.
Each is SAFE: the machine goes on in some way the spec does not state, and the model proves nothing about it. -/
inductive Refusal where
  /-- Raised by an arm of `exec` whose instruction has no meaning yet. Safe. -/
  | notModelled (mnemonic : String)
  /-- Raised by the fetch: the word selects no format (R91, D3, U1). Safe. -/
  | undefinedEncoding (w : Word)
  /-- Raised by LD and ST: base plus index is 64 or more (R51, R150, R155, D12, U2). Safe. -/
  | dataAddressOutOfRange
  /-- Raised by LD: the RAM byte has not been written since reset (R52, D28, U3). Safe. -/
  | ramByteNeverWritten
  /-- Raised by IN and OUT: IO addresses 16h to FFh are not assigned (R220, D22, U4). Safe. -/
  | unassignedIoAddress
  /-- Raised by OUT to UDR while the UART busy flag is set (R206, D33, U9). Safe. -/
  | uartWriteWhileBusy
  /-- Raised by OUT to SDR while the SPI busy flag is set (R210, D33, U9). Safe. -/
  | spiWriteWhileBusy
  /-- Raised by WRF that would set IE or TIE while IN_HANDLER is 1 (R174, R237, D19, U8). Safe. -/
  | enableInsideHandler
  deriving DecidableEq, Repr

/-- FLAGS with all four fields 0. -/
def Flags.clear : Flags := { c := false, z := false, ie := false, tie := false }

/-- The backup registers at the value the model names for reset (the spec gives none; log entry 10). -/
def Backup.zero : Backup := { pc := 0, ioaddr := 0, flags := Flags.clear }

/-- The flash start-up command bytes of R264, in order. -/
def flashStartupBytes : List Byte :=
  [0xFF#8, 0xAB#8, 0x06#8, 0x01#8, 0x02#8, 0x02#8, 0xEB#8, 0x00#8, 0x00#8, 0x00#8, 0x00#8, 0x00#8, 0x00#8, 0xA5#8]

/-- The IO registers after reset: DDRx, PORTx and PW as R261 states; every other value is the model's (log entry 10). -/
def IoRegs.reset : IoRegs :=
  { ddra := 0, porta := 0, ddrb := 0, portb := 0
    udiv := 0, ubusy := false, utx := 0, urx := 0, uhb := false
    sdiv := 0, sbusy := false, stx := 0, srx := 0
    tdiv := 0, prescale := 0, tcapt := 0, timer := 0, ttop := 0
    pw := 0x80, fdiv := 0 }

/-- The input pins as the model names them at the start: all low but RSTD, which has just gone high (log entry 24). -/
def Pins.reset : Pins :=
  { pa := 0, pb := 0, rxd := false, sdi := false, int := false, pause := false, rstd := true }

/-- The machine right after reset (R37, R261, R262). -/
def State.reset : State :=
  { regs := Vector.replicate 15 0
    pc := 0
    ioaddr := 0
    flags := Flags.clear
    bak := Backup.zero
    pendT := false
    pendE := false
    waiting := false
    inHandler := false
    ram := []
    flash := []
    io := IoRegs.reset
    pins := Pins.reset
    uartOut := []
    spiOut := []
    uartHanded := []
    spiHanded := []
    flashStartup := flashStartupBytes
    agenda := []
    draws := 0 }

end Sys2Proof.Machine
end

