-- ==== Sys2Proof/Machine/Flags.lean ====
section
/-! DEFINITION. Every flag computation of the spec: AddC (R7), SetAdd, SetSub, SetZ (R119), the shifts' carry (R160 to R163), and
FLAGS as a byte (R27). A computation answers the result and the FLAGS it leaves; IE and TIE are never touched here. -/

namespace Sys2Proof.Machine

/-- One bit as a byte with that bit at position `n`. -/
def bitAt (n : Nat) (b : Bool) : Byte := (BitVec.ofBool b).setWidth 8 <<< n

/-- `AddC(p, q, cin)` of R7: the 9-bit sum, as the 8-bit result and the carry out. -/
def addC (p q : Byte) (cin : Bool) : Byte × Bool :=
  let t : BitVec 9 := p.setWidth 9 + q.setWidth 9 + (BitVec.ofBool cin).setWidth 9
  (t.extractLsb' 0 8, t.getLsbD 8)

/-- FLAGS with C and Z written from a carry and an 8-bit result. -/
def Flags.withCZ (f : Flags) (c : Bool) (r : Byte) : Flags := { f with c := c, z := r == 0 }

/-- FLAGS with Z written from an 8-bit result, C unchanged. -/
def Flags.withZ (f : Flags) (r : Byte) : Flags := { f with z := r == 0 }

/-- FLAGS as an operation leaves them: written where the flag policy says the class writes them (R28, FLAG_POLICY). -/
def Flags.ifWrites (writes : Bool) (written old : Flags) : Flags := if writes then written else old

/-- `SetAdd` of R119. -/
def setAdd (f : Flags) (p q : Byte) (cin : Bool) : Byte × Flags :=
  let rc := addC p q cin
  (rc.1, Flags.ifWrites Params.arithmeticWritesCZ (f.withCZ rc.2 rc.1) f)

/-- `SetSub` of R119: `p + ~q + cin`, C the carry out, so that C = 1 means no borrow (SUB_CARRY, D7). -/
def setSub (f : Flags) (p q : Byte) (cin : Bool) : Byte × Flags :=
  let rc := addC p (~~~q) cin
  (rc.1, Flags.ifWrites Params.arithmeticWritesCZ (f.withCZ (rc.2 == Params.subCarryIsNoBorrow) rc.1) f)

/-- `SetZ` of R119, as the logic operations use it. -/
def setZ (f : Flags) (r : Byte) : Byte × Flags := (r, Flags.ifWrites Params.logicWritesZ (f.withZ r) f)

/-- FLAGS after a one-bit shift: C is the bit shifted out (stated), Z from the result (FLAG_POLICY). -/
def shiftFlags (f : Flags) (c : Bool) (r : Byte) : Flags :=
  Flags.ifWrites Params.shiftWritesZ (f.withCZ c r) { f with c := c }

/-- FLAGS after a rotation within the 8 bits: C unchanged, Z from the result (FLAG_POLICY). -/
def rotateFlags (f : Flags) (r : Byte) : Flags := Flags.ifWrites Params.rotateWritesZ (f.withZ r) f

/-- A one-bit move to the right: `{top, p[7:1]}` with Z from the result and C the bit shifted out (R160, R161). -/
def shiftRight (f : Flags) (p : Byte) (top : Bool) : Byte × Flags :=
  let r : Byte := BitVec.ofBool top ++ p.extractLsb' 1 7
  (r, shiftFlags f (p.getLsbD 0) r)

/-- A one-bit move to the left: `{p[6:0], low}` with Z from the result and C the bit shifted out (R162, R163). -/
def shiftLeft (f : Flags) (p : Byte) (low : Bool) : Byte × Flags :=
  let r : Byte := p.extractLsb' 0 7 ++ BitVec.ofBool low
  (r, shiftFlags f (p.getLsbD 7) r)

/-- Rotation right within the 8 bits, C unchanged (R164). -/
def rotateRight (f : Flags) (p : Byte) : Byte × Flags :=
  let r : Byte := BitVec.ofBool (p.getLsbD 0) ++ p.extractLsb' 1 7
  (r, rotateFlags f r)

/-- Rotation left within the 8 bits, C unchanged (R165). -/
def rotateLeft (f : Flags) (p : Byte) : Byte × Flags :=
  let r : Byte := p.extractLsb' 0 7 ++ BitVec.ofBool (p.getLsbD 7)
  (r, rotateFlags f r)

/-- FLAGS as RDF reads it: `{0000, TIE, IE, Z, C}` (R27, R173). -/
def Flags.toByte (f : Flags) : Byte :=
  bitAt Params.cBit f.c ||| bitAt Params.zBit f.z ||| bitAt Params.ieBit f.ie ||| bitAt Params.tieBit f.tie

/-- FLAGS as WRF writes it; bits 7:4 are ignored (R27, R174). -/
def Flags.ofByte (v : Byte) : Flags :=
  { c := v.getLsbD Params.cBit, z := v.getLsbD Params.zBit
    ie := v.getLsbD Params.ieBit, tie := v.getLsbD Params.tieBit }

end Sys2Proof.Machine
end

