-- ==== Sys2Proof/Machine/Operands.lean ====
section
/-! DEFINITION. Every operand form: a register (with r0 hardwired, R21), the zero-extended 4-bit immediate, the sign-extended branch
offset, the base-plus-index data address (R89), and the two halves of a 16-bit value (R58). -/

namespace Sys2Proof.Machine

/-- `x[i]`: reads general register i; `x[0]` is always 0 (R7, R21). -/
def State.x (s : State) : RegIdx → Byte
  | ⟨0, _⟩ => 0
  | ⟨n + 1, h⟩ => s.regs[n]'(by omega)

/-- `x[i] <- v`: writes general register i; a write to r0 is discarded (R7, R21). -/
def State.setX (s : State) (i : RegIdx) (v : Byte) : State :=
  match i with
  | ⟨0, _⟩ => s
  | ⟨n + 1, h⟩ => { s with regs := s.regs.set n v (by omega) }

/-- The 4-bit immediate of ADDI, ADCI, SUBI, SBCI, CMPI: `zext_8` (R89). -/
def imm8 (imm : BitVec 4) : Byte := imm.setWidth 8

/-- The branch offset: `sext_14(imm10)` (R89, R145). -/
def branchOffset (off : BitVec Config.branchImmBits) : CodeAddr := off.signExtend 14

/-- `ea = base6 + x[idx]`, an unbounded natural number (R51). -/
def effectiveAddress (s : State) (base : BitVec Config.ldstBaseBits) (idx : RegIdx) : Nat := base.toNat + (s.x idx).toNat

/-- The RAM address an effective address names, if it names one (R51, DMEM_OOB of D12). -/
def dataAddress (ea : Nat) : Option Nat :=
  if ea < Config.dmemBytes then some ea
  else match Params.dmemOob with
    | .refuse => none
    | .wrap64 => some (ea % Config.dmemBytes)

/-- Bits 7:0 of a 16-bit value. -/
def lowByte (v : Word) : Byte := v.extractLsb' 0 8

/-- Bits 15:8 of a 16-bit value. -/
def highByte (v : Word) : Byte := v.extractLsb' 8 8

/-- `{high, low}` (R5). -/
def pair (high low : Byte) : Word := high ++ low

end Sys2Proof.Machine
end

