-- ==== Sys2Proof/Machine/Ops.lean ====
section
/-! DEFINITION. The named operations over memory, registers and the program counter, and taking an interrupt (R235) with the return
from one (R171, R238). -/

namespace Sys2Proof.Machine

/-! Memory in canonical form. -/

/-- The byte written at an address, if one was. -/
def Memory.lookup : Memory → Nat → Option Byte
  | [], _ => none
  | (k, v) :: m, a => if k = a then some v else Memory.lookup m a

/-- Writes one byte and keeps the addresses rising. -/
def Memory.write : Memory → Nat → Byte → Memory
  | [], a, b => [(a, b)]
  | (k, v) :: m, a, b =>
    if a < k then (a, b) :: (k, v) :: m
    else if a = k then (a, b) :: m
    else (k, v) :: Memory.write m a b

/-- Addresses strictly rise from `low` on and stay below `size`. -/
def Memory.wfFrom : Nat → Nat → Memory → Bool
  | _, _, [] => true
  | low, size, (k, _) :: m => decide (low ≤ k) && decide (k < size) && Memory.wfFrom (k + 1) size m

/-- The canonical form of a memory of `size` bytes. -/
def Memory.wf (size : Nat) (m : Memory) : Bool := Memory.wfFrom 0 size m

/-! Data RAM and program ROM. -/

/-- `MemRead(ea, 1)`; none where the byte has not been written since reset (R52). -/
def State.ramRead (s : State) (ea : Nat) : Option Byte := s.ram.lookup ea

/-- `MemWrite(ea, 1, v)` (R52). -/
def State.ramWrite (s : State) (ea : Nat) (v : Byte) : State := { s with ram := s.ram.write ea v }

/-- One flash byte; a byte the image does not define is a free value (U19). -/
def State.flashRead (s : State) (a : Nat) : Byte :=
  match s.flash.lookup a with
  | some b => b
  | none => Config.unprogrammedFlash a

/-- `RomRead(waddr)`: the word at flash byte addresses 2 * waddr and 2 * waddr + 1 (R53, R54). -/
def State.romRead (s : State) (waddr : Word) : Word :=
  wordOfBytes (s.flashRead (2 * waddr.toNat)) (s.flashRead (2 * waddr.toNat + 1))

/-- A word put into the flash from outside the machine (R268: by "programming the external flash"). -/
def State.programWord (s : State) (waddr : Word) (w : Word) : State :=
  { s with flash := (s.flash.write (2 * waddr.toNat) (evenByte w)).write (2 * waddr.toNat + 1) (oddByte w) }

/-- Instruction fetch, `RomRead(pc)` (R53). -/
def State.fetchWord (s : State) : Word := s.romRead (s.pc.setWidth 16)

/-! Control registers. -/

/-- `pc <- t` (R7). -/
def State.setPc (s : State) (t : CodeAddr) : State := { s with pc := t }

/-- `pc <- pc + 1`, modulo 2^14 (R24). -/
def State.advance (s : State) : State := s.setPc (s.pc + 1)

def State.setFlags (s : State) (f : Flags) : State := { s with flags := f }

def State.setIoaddr (s : State) (v : Byte) : State := { s with ioaddr := v }

def State.setIo (s : State) (r : IoRegs) : State := { s with io := r }

/-- One free value has been drawn. -/
def State.drew (s : State) : State := { s with draws := s.draws + 1 }

/-- The shape of every instruction that writes a register and FLAGS and goes on to the next word. -/
def writeBack (s : State) (a : RegIdx) (r : Byte × Flags) : Host.Outcome State Fault Refusal :=
  .next ((s.setX a r.1).setFlags r.2).advance

/-- The shape of a compare: FLAGS only (R134). -/
def writeFlags (s : State) (r : Byte × Flags) : Host.Outcome State Fault Refusal :=
  .next (s.setFlags r.2).advance

/-- The branch of R145: taken target `PC + BRANCH_BIAS + sext_14(imm10)`. -/
def branchIf (cond : Bool) (off : BitVec Config.branchImmBits) (s : State) : Host.Outcome State Fault Refusal :=
  if cond then .next (s.setPc (s.pc + Params.pcRef + Params.branchBias + branchOffset off)) else .next s.advance

/-- UNDEFINED_ENCODING (R4, R91, D3): what fetching a word that selects no format does. DESIGN CHOICE, safe, log entry 2. -/
def undefinedEncodingOutcome (w : Word) (_ : State) : Host.Outcome State Fault Refusal := .refused (.undefinedEncoding w)

/-! Interrupts. -/

/-- The two sources (R230). -/
inductive IrqSource where
  | timer
  | external
  deriving DecidableEq, Repr

/-- The fixed entry address of each source (R235, R236). -/
def IrqSource.vector : IrqSource → CodeAddr
  | .timer => 0x0002
  | .external => 0x0001

/-- `InterruptEntry(vector)` of R235, one atomic step. -/
def interruptEntry (src : IrqSource) (s : State) : State :=
  { s with
    bak := { pc := s.pc, ioaddr := s.ioaddr, flags := s.flags }
    pc := src.vector
    flags := { s.flags with ie := false, tie := false }
    pendT := match src with | .timer => false | .external => s.pendT
    pendE := match src with | .timer => s.pendE | .external => false
    waiting := false
    inHandler := true }

/-- Return from interrupt: PC, IOADDR and FLAGS from the backup registers (R171, R238). -/
def returnFromInterrupt (s : State) : State :=
  { s with pc := s.bak.pc, ioaddr := s.bak.ioaddr, flags := s.bak.flags, inHandler := false }

/-- What the CPU does at an instruction boundary. -/
inductive CpuAction where
  | idle
  | enter (src : IrqSource)
  | fetch
  deriving DecidableEq, Repr

/-- The boundary evaluation of R233, with reset (R260) and PAUSE (R244) before it. UNVERIFIED (D17, D31), log entry 14. -/
def nextAction (s : State) : CpuAction :=
  if !s.pins.rstd then .idle
  else if s.pins.pause then .idle
  else if s.pendT && s.flags.tie then .enter .timer
  else if s.pendE && s.flags.ie then .enter .external
  else if s.waiting then .idle
  else .fetch

/-- Pin M1, "pulses high at every instruction fetch" (R244): whether the CPU's next step pulses it. DESIGN CHOICE,
log entry 28. -/
def m1Pulses (s : State) : Bool := nextAction s == .fetch

end Sys2Proof.Machine
end

