-- ==== Sys2Proof/Machine/Io.lean ====
section
/-! DEFINITION. The IO space: the register map of R201 and `IORead`, `IOWrite` per address (R57, R202 to R221). -/

namespace Sys2Proof.Machine

/-- The assigned IO addresses, 00h to 15h, by name (R201). -/
inductive IoAddr where
  | ddra | porta | ddrb | portb | pina | pinb
  | udivLow | udivHigh | udr | stat | sdiv | sdr
  | tdiv | capture | tcaptLow | tcaptHigh | load | ttopLow | ttopHigh
  | pw | fdivLow | fdivHigh
  deriving DecidableEq, Repr

/-- The other half of a 16-bit IO register; every other address is its own. -/
def IoAddr.otherHalf : IoAddr → IoAddr
  | .udivLow => .udivHigh
  | .udivHigh => .udivLow
  | .tcaptLow => .tcaptHigh
  | .tcaptHigh => .tcaptLow
  | .ttopLow => .ttopHigh
  | .ttopHigh => .ttopLow
  | .fdivLow => .fdivHigh
  | .fdivHigh => .fdivLow
  | .ddra => .ddra
  | .porta => .porta
  | .ddrb => .ddrb
  | .portb => .portb
  | .pina => .pina
  | .pinb => .pinb
  | .udr => .udr
  | .stat => .stat
  | .sdiv => .sdiv
  | .sdr => .sdr
  | .tdiv => .tdiv
  | .capture => .capture
  | .load => .load
  | .pw => .pw

/-- The register map with the lower address of a pair as its low byte; 16h to FFh are not assigned (R201, R220). -/
def ioAddrLowFirst (a : Byte) : Option IoAddr :=
  match a.toNat with
  | 0x00 => some .ddra
  | 0x01 => some .porta
  | 0x02 => some .ddrb
  | 0x03 => some .portb
  | 0x04 => some .pina
  | 0x05 => some .pinb
  | 0x06 => some .udivLow
  | 0x07 => some .udivHigh
  | 0x08 => some .udr
  | 0x09 => some .stat
  | 0x0A => some .sdiv
  | 0x0B => some .sdr
  | 0x0C => some .tdiv
  | 0x0D => some .capture
  | 0x0E => some .tcaptLow
  | 0x0F => some .tcaptHigh
  | 0x10 => some .load
  | 0x11 => some .ttopLow
  | 0x12 => some .ttopHigh
  | 0x13 => some .pw
  | 0x14 => some .fdivLow
  | 0x15 => some .fdivHigh
  | _ => none

/-- The register map in the byte order of the 16-bit registers (R201, IOPAIR_ORDER of D20). -/
def ioAddr (a : Byte) : Option IoAddr :=
  if Params.ioPairLowFirst then ioAddrLowFirst a else (ioAddrLowFirst a).map IoAddr.otherHalf

/-- A 16-bit IO register with its low byte written. -/
def withLow (w : Word) (v : Byte) : Word := pair (highByte w) v

/-- A 16-bit IO register with its high byte written. -/
def withHigh (w : Word) (v : Byte) : Word := pair v (lowByte w)

/-- STAT: `{00000, UHB, SBUSY, UBUSY}` (R211). -/
def IoRegs.stat (r : IoRegs) : Byte :=
  bitAt Params.ubusyBit r.ubusy ||| bitAt Params.sbusyBit r.sbusy ||| bitAt Params.uhbBit r.uhb

/-- What a read of PINx returns: the outside level where the pin is an input, a free bit where it is an output (R204). -/
def pinValue (ddr pins free : Byte) : Byte := (pins &&& ~~~ddr) ||| (free &&& ddr)

/-- The level on each pin of a port: PORTx where the chip drives it, else the outside level (R203). -/
def portLevels (ddr port pins : Byte) : Byte := (port &&& ddr) ||| (pins &&& ~~~ddr)

/-- The prescaler phase after a write of TDIV or a timer load: kept or reset, not stated which (R215, N23). -/
def phaseAfter (draw : Nat) (phase : Byte) : Byte := if Config.freeBit draw then 0 else phase

/-- `IORead` at an assigned address: the value and the state its read side effect leaves. Of a read of the write-triggers 0Dh and 10h
only the value is not defined (R214, R215): it is free and nothing is triggered, where R221 and D22 refuse. DESIGN CHOICE, log entry 35. -/
def ioReadAt (r : IoAddr) (s : State) : Except Refusal (Byte × State) :=
  match r with
  | .ddra => .ok (s.io.ddra, s)
  | .porta => .ok (s.io.porta, s)
  | .ddrb => .ok (s.io.ddrb, s)
  | .portb => .ok (s.io.portb, s)
  | .pina => .ok (pinValue s.io.ddra s.pins.pa (Config.freeByte s.draws), s.drew)
  | .pinb => .ok (pinValue s.io.ddrb s.pins.pb (Config.freeByte s.draws), s.drew)
  | .udivLow => .ok (lowByte s.io.udiv, s)
  | .udivHigh => .ok (highByte s.io.udiv, s)
  | .udr => .ok (s.io.urx, s.setIo { s.io with uhb := false })
  | .stat => .ok (s.io.stat, s)
  | .sdiv => .ok (s.io.sdiv, s)
  | .sdr => if s.io.sbusy then .ok (Config.freeByte s.draws, s.drew) else .ok (s.io.srx, s)
  | .tdiv => .ok (s.io.tdiv, s)
  | .capture => .ok (Config.freeByte s.draws, s.drew)
  | .tcaptLow => .ok (lowByte s.io.tcapt, s)
  | .tcaptHigh => .ok (highByte s.io.tcapt, s)
  | .load => .ok (Config.freeByte s.draws, s.drew)
  | .ttopLow => .ok (lowByte s.io.ttop, s)
  | .ttopHigh => .ok (highByte s.io.ttop, s)
  | .pw => .ok (s.io.pw, s)
  | .fdivLow => .ok (lowByte s.io.fdiv, s)
  | .fdivHigh => .ok (highByte s.io.fdiv, s)

/-- The UART transmitter is handed a byte: it is busy and owns the byte from now on (R206). -/
def State.handUart (s : State) (v : Byte) : State :=
  { s with io := { s.io with ubusy := true, utx := v }, uartHanded := s.uartHanded ++ [v] }

/-- The SPI port is handed a byte: it is busy and owns the byte from now on (R210). -/
def State.handSpi (s : State) (v : Byte) : State :=
  { s with io := { s.io with sbusy := true, stx := v }, spiHanded := s.spiHanded ++ [v] }

/-- `IOWrite` at an assigned address. A write of a divider or width (UDIV, SDIV, TDIV, PW, FDIV) changes that register alone (and,
for TDIV, the phase): a frame or transfer in flight still completes once, with the byte it was given, at a time that is free. The
effect of changing UDIV with a frame in flight is not stated (R205). DESIGN CHOICE, log entry 32. -/
def ioWriteAt (r : IoAddr) (v : Byte) (s : State) : Except Refusal State :=
  match r with
  | .ddra => .ok (s.setIo { s.io with ddra := v })
  | .porta => .ok (s.setIo { s.io with porta := v })
  | .ddrb => .ok (s.setIo { s.io with ddrb := v })
  | .portb => .ok (s.setIo { s.io with portb := v })
  | .pina => .ok s
  | .pinb => .ok s
  | .udivLow => .ok (s.setIo { s.io with udiv := withLow s.io.udiv v })
  | .udivHigh => .ok (s.setIo { s.io with udiv := withHigh s.io.udiv v })
  | .udr => if s.io.ubusy then .error .uartWriteWhileBusy else .ok (s.handUart v)
  | .stat => .ok s
  | .sdiv => .ok (s.setIo { s.io with sdiv := v })
  | .sdr => if s.io.sbusy then .error .spiWriteWhileBusy else .ok (s.handSpi v)
  | .tdiv => .ok (s.setIo { s.io with tdiv := v, prescale := phaseAfter s.draws s.io.prescale }).drew
  | .capture => .ok (s.setIo { s.io with tcapt := s.io.timer })
  | .tcaptLow => .ok (s.setIo { s.io with tcapt := withLow s.io.tcapt v })
  | .tcaptHigh => .ok (s.setIo { s.io with tcapt := withHigh s.io.tcapt v })
  | .load => .ok (s.setIo { s.io with timer := s.io.tcapt, prescale := phaseAfter s.draws s.io.prescale }).drew
  | .ttopLow => .ok (s.setIo { s.io with ttop := withLow s.io.ttop v })
  | .ttopHigh => .ok (s.setIo { s.io with ttop := withHigh s.io.ttop v })
  | .pw => .ok (s.setIo { s.io with pw := v })
  | .fdivLow => .ok (s.setIo { s.io with fdiv := withLow s.io.fdiv v })
  | .fdivHigh => .ok (s.setIo { s.io with fdiv := withHigh s.io.fdiv v })

/-- IO_UNASSIGNED (R4, R220, D22): what a read of an address with no device does. DESIGN CHOICE, safe, log entry 17. -/
def ioUnassignedRead (_ioa : Byte) (_ : State) : Except Refusal (Byte × State) := .error .unassignedIoAddress

/-- IO_UNASSIGNED (R4, R220, D22): what a write of an address with no device does. DESIGN CHOICE, safe, log entry 17. -/
def ioUnassignedWrite (_ioa _v : Byte) (_ : State) : Except Refusal State := .error .unassignedIoAddress

/-- `IORead(ioa)` (R57); an address with no device as IO_UNASSIGNED says (R220). -/
def ioRead (ioa : Byte) (s : State) : Except Refusal (Byte × State) :=
  match ioAddr ioa with
  | some r => ioReadAt r s
  | none => ioUnassignedRead ioa s

/-- `IOWrite(ioa, v)` (R57); an address with no device as IO_UNASSIGNED says (R220). -/
def ioWrite (ioa : Byte) (v : Byte) (s : State) : Except Refusal State :=
  match ioAddr ioa with
  | some r => ioWriteAt r v s
  | none => ioUnassignedWrite ioa v s

/-! What the outside sees of the devices (R268). -/

/-- The levels on PA[7:0] (R203). -/
def paLevels (s : State) : Byte := portLevels s.io.ddra s.io.porta s.pins.pa

/-- The levels on PB[7:0] (R203). -/
def pbLevels (s : State) : Byte := portLevels s.io.ddrb s.io.portb s.pins.pb

/-- UART bitclock = CPU clock / (UDIV + 1) (R205). -/
def uartClockDivisor (r : IoRegs) : Nat := r.udiv.toNat + 1

/-- SPI serial clock = CPU clock / (SDIV * 2 + 1) (R209). -/
def spiClockDivisor (r : IoRegs) : Nat := r.sdiv.toNat * 2 + 1

/-- Timer count rate = CPU clock / (TDIV + 1) (R212). -/
def timerClockDivisor (r : IoRegs) : Nat := r.tdiv.toNat + 1

/-- PWM frequency = CPU clock / 256 (R218). -/
def pwmClockDivisor : Nat := 256

/-- PW = 255 makes the PWM output always on (R218, C6). -/
def pwmAlwaysOn (r : IoRegs) : Bool := r.pw == 255

/-- FREQ = CPU clock / (FDIV + 1) (R219, C5). -/
def freqClockDivisor (r : IoRegs) : Nat := r.fdiv.toNat + 1

end Sys2Proof.Machine
end

