-- ==== Sys2Proof/Machine/Devices.lean ====
section
/-! DEFINITION. What the agents other than the CPU do between instructions (R200): the timer (R217), the UART and SPI agents (R206,
R208, R210), the outside world on the input pins (R230, R244) and the reset pin (R260 to R262); and that a busy port finishes
eventually (R206, D24). -/

namespace Sys2Proof.Machine

/-- An interrupt event sets its latch if its enable bit is 1 at that moment (R32, R232). -/
def latches (enable : Bool) : Bool := enable || Params.irqLatchWhenDisabled

/-- `TimerExpiry` of R217. -/
def timerExpiry (s : State) : State := { s with pendT := s.pendT || latches s.flags.tie }

/-- `TimerTick` of R217. UNVERIFIED (D30), log entry 21. -/
def timerTick (lateExpiry : Bool) (s : State) : State :=
  if s.io.timer = s.io.ttop then timerExpiry (s.setIo { s.io with timer := 0 })
  else if s.io.ttop < s.io.timer then
    let t := s.setIo { s.io with timer := 0 }
    if lateExpiry then timerExpiry t else t
  else s.setIo { s.io with timer := s.io.timer + 1 }

/-- One CPU clock at the prescaler: a tick once every TDIV + 1 clocks (R212, R217). DEDUCED, log entry 21. -/
def timerClock (lateExpiry : Bool) (s : State) : State :=
  if s.io.prescale < s.io.tdiv then s.setIo { s.io with prescale := s.io.prescale + 1 }
  else timerTick lateExpiry (s.setIo { s.io with prescale := 0 })

/-- The UART transmitter finishes its frame (R206); with no byte to send it does nothing (DESIGN CHOICE, log entry 23). Where a reset
left the busy flag set it sends the byte the reset drew (DESIGN CHOICE, log entry 34). -/
def uartSent (s : State) : State :=
  if s.io.ubusy then { s with io := { s.io with ubusy := false }, uartOut := s.uartOut ++ [s.io.utx] } else s

/-- A frame has arrived on RXD; it replaces an unread byte (R208). -/
def uartReceived (b : Byte) (s : State) : State := s.setIo { s.io with urx := b, uhb := true }

/-- The SPI transfer completes (R210); with no transfer running there is nothing to complete (DESIGN CHOICE, log entry 23). Where a
reset left the busy flag set it sends the byte the reset drew (DESIGN CHOICE, log entry 34). -/
def spiDone (b : Byte) (s : State) : State :=
  if s.io.sbusy then { s with io := { s.io with sbusy := false, srx := b }, spiOut := s.spiOut ++ [s.io.stx] } else s

/-- The level on INT; a high-to-low transition is the external interrupt event (R230). -/
def driveInt (level : Bool) (s : State) : State :=
  { s with
    pins := { s.pins with int := level }
    pendE := s.pendE || (s.pins.int && !level && latches s.flags.ie) }

/-- Entering reset: every value R261 states, `u` for those it leaves unspecified (R262). The flash, the outside world's
levels and what was handed over and sent before are not the design's to change; RAM holds no value until it is written. DESIGN CHOICE, log
entries 7 and 22. -/
def enterReset (u : Unspecified) (s : State) : State :=
  { s with
    regs := u.regs
    pc := 0
    ioaddr := 0
    flags := Flags.clear
    bak := u.bak
    pendT := false
    pendE := false
    waiting := false
    inHandler := false
    ram := []
    io :=
      { ddra := 0, porta := 0, ddrb := 0, portb := 0
        udiv := u.udiv, ubusy := u.ubusy, utx := u.utx, urx := u.urx, uhb := u.uhb
        sdiv := u.sdiv, sbusy := u.sbusy, stx := u.stx, srx := u.srx
        tdiv := u.tdiv, prescale := u.prescale, tcapt := u.tcapt, timer := u.timer, ttop := u.ttop
        pw := 0x80, fdiv := u.fdiv }
    pins := { s.pins with rstd := false }
    flashStartup := flashStartupBytes }

/-- A device acts only while the design is out of reset ("The design is in reset while RSTD is low", R260). -/
def whenRunning (act : State → State) (s : State) : State := if s.pins.rstd then act s else s

/-- One move of an agent other than the CPU. -/
def applyEvent (e : Event) (s : State) : State :=
  match e with
  | .timerClock late => whenRunning (timerClock late) s
  | .uartSent => whenRunning uartSent s
  | .uartReceived b => whenRunning (uartReceived b) s
  | .spiDone b => whenRunning (spiDone b) s
  | .drivePA v => { s with pins := { s.pins with pa := v } }
  | .drivePB v => { s with pins := { s.pins with pb := v } }
  | .driveRXD level => { s with pins := { s.pins with rxd := level } }
  | .driveSDI level => { s with pins := { s.pins with sdi := level } }
  | .driveINT level => if s.pins.rstd then driveInt level s else { s with pins := { s.pins with int := level } }
  | .drivePAUSE level => { s with pins := { s.pins with pause := level } }
  | .assertRSTD u => enterReset u s
  | .releaseRSTD => { s with pins := { s.pins with rstd := true } }

/-! Eventual progress of the busy flags (R206: "the model assumes only that it eventually clears (weak fairness of the transmitter
agent)"; D24, U13). -/

/-- A serial port owns a byte it has not finished with. -/
def State.portBusy (s : State) : Bool := s.io.ubusy || s.io.sbusy

/-- The end of the UART transmitter's frame, after a free number of CPU turns (R206). -/
def uartDue (s : State) : List Turn :=
  if s.io.ubusy then List.replicate (Config.freeDelay s.draws) .cpu ++ [.event .uartSent] else []

/-- The end of the SPI transfer, after a free number of CPU turns, with a free byte received (R210). -/
def spiDue (s : State) : List Turn :=
  if s.io.sbusy then
    List.replicate (Config.freeDelay (s.draws + 1)) .cpu ++ [.event (.spiDone (Config.freeByte s.draws))]
  else []

/-- The agenda is used up while a port is busy and the design is out of reset. -/
def State.duesNeeded (s : State) : Bool := s.agenda.isEmpty && s.portBusy && s.pins.rstd

/-- The turns to come: the agenda, or, where it is used up, the completions of the ports that are busy, each after a free number of CPU
turns. So a busy flag eventually clears whatever the agenda holds. DESIGN CHOICE, safe, log entry 33. -/
def State.turnsAhead (s : State) : List Turn := if s.duesNeeded then uartDue s ++ spiDue s else s.agenda

/-- The state the next mover starts from: its turn is off the agenda, and the free values of the turns ahead have been drawn. -/
def State.takeTurn (s : State) : State :=
  { s with agenda := s.turnsAhead.tail, draws := if s.duesNeeded then s.draws + 2 else s.draws }

end Sys2Proof.Machine
end

