-- ==== Sys2Proof/Machine/Control.lean ====
section
/-! DEFINITION. The Jump format (R140) and the Conditional Branch format (R145 to R149). -/

namespace Sys2Proof.Machine

/-- JMP addr14: the immediate address is loaded into PC (R140). -/
def execJmp (addr : BitVec Config.jumpAddrBits) (s : State) : Host.Outcome State Fault Refusal :=
  .next (s.setPc (addr.setWidth 14))

/-- BCC off: taken if C = 0 (R146). -/
def execBcc (off : BitVec Config.branchImmBits) (s : State) : Host.Outcome State Fault Refusal := branchIf (!s.flags.c) off s

/-- BCS off: taken if C = 1 (R147). -/
def execBcs (off : BitVec Config.branchImmBits) (s : State) : Host.Outcome State Fault Refusal := branchIf s.flags.c off s

/-- BNZ off: taken if Z = 0 (R148). -/
def execBnz (off : BitVec Config.branchImmBits) (s : State) : Host.Outcome State Fault Refusal := branchIf (!s.flags.z) off s

/-- BZ off: taken if Z = 1 (R149). -/
def execBz (off : BitVec Config.branchImmBits) (s : State) : Host.Outcome State Fault Refusal := branchIf s.flags.z off s

end Sys2Proof.Machine
end

