-- ==== Sys2Proof/Machine/Ext.lean ====
section
/-! DEFINITION. The EXT format, opcodes 0 to 15 (spec/46_ext.md R159 to R175). -/

namespace Sys2Proof.Machine

/-- LSR ra (R160). -/
def execLsr (a : RegIdx) (s : State) : Host.Outcome State Fault Refusal :=
  writeBack s a (shiftRight s.flags (s.x a) false)

/-- RRC ra (R161). -/
def execRrc (a : RegIdx) (s : State) : Host.Outcome State Fault Refusal :=
  writeBack s a (shiftRight s.flags (s.x a) s.flags.c)

/-- LSL ra (R162). -/
def execLsl (a : RegIdx) (s : State) : Host.Outcome State Fault Refusal :=
  writeBack s a (shiftLeft s.flags (s.x a) false)

/-- RLC ra (R163). -/
def execRlc (a : RegIdx) (s : State) : Host.Outcome State Fault Refusal :=
  writeBack s a (shiftLeft s.flags (s.x a) s.flags.c)

/-- ROR ra (R164). -/
def execRor (a : RegIdx) (s : State) : Host.Outcome State Fault Refusal :=
  writeBack s a (rotateRight s.flags (s.x a))

/-- ROL ra (R165). -/
def execRol (a : RegIdx) (s : State) : Host.Outcome State Fault Refusal :=
  writeBack s a (rotateLeft s.flags (s.x a))

/-- STIOA ra: `IOADDR <- x[a]`; no IO access happens (R166). -/
def execStioa (a : RegIdx) (s : State) : Host.Outcome State Fault Refusal :=
  .next (s.setIoaddr (s.x a)).advance

/-- OUT ra: exactly one IOWrite at IOADDR (R167). -/
def execOut (a : RegIdx) (s : State) : Host.Outcome State Fault Refusal :=
  match ioWrite s.ioaddr (s.x a) s with
  | .ok t => .next t.advance
  | .error r => .refused r

/-- IN ra: exactly one IORead at IOADDR, also when the destination is r0 (R168). -/
def execIn (a : RegIdx) (s : State) : Host.Outcome State Fault Refusal :=
  match ioRead s.ioaddr s with
  | .ok (v, t) => .next (t.setX a v).advance
  | .error r => .refused r

/-- CMPI imm4: compares the literal r1 with the immediate (R169). -/
def execCmpi (imm : BitVec 4) (s : State) : Host.Outcome State Fault Refusal :=
  writeFlags s (setSub s.flags (s.x 1) (imm8 imm) true)

/-- WAIT: halts execution until an interrupt is taken; the PC is already past the WAIT (R170). -/
def execWait (s : State) : Host.Outcome State Fault Refusal :=
  .next { s.advance with waiting := true }

/-- RETI (R171). It runs also before any interrupt entry: the backup registers then hold their reset values
(DESIGN CHOICE, log entry 11). -/
def execReti (s : State) : Host.Outcome State Fault Refusal := .next (returnFromInterrupt s)

/-- MUL ra: unsigned `x[1] * x[a]`; r1 = low byte, r2 = high byte (R172, MUL_SIGNED and MUL_HIGH_REG of D13). -/
def execMul (a : RegIdx) (s : State) : Host.Outcome State Fault Refusal :=
  let prod : Word :=
    if Params.mulSigned then (s.x 1).signExtend 16 * (s.x a).signExtend 16 else (s.x 1).setWidth 16 * (s.x a).setWidth 16
  .next ((s.setX Params.mulLowReg (lowByte prod)).setX Params.mulHighReg (highByte prod)).advance

/-- RDF ra: `x[a] <- {0000, TIE, IE, Z, C}` (R173). -/
def execRdf (a : RegIdx) (s : State) : Host.Outcome State Fault Refusal :=
  .next (s.setX a s.flags.toByte).advance

/-- WRF ra: all four flags from the register, refused where it would set IE or TIE inside a handler (R174, D19). DESIGN CHOICE,
safe, log entry 12. -/
def execWrf (a : RegIdx) (s : State) : Host.Outcome State Fault Refusal :=
  let f := Flags.ofByte (s.x a)
  if s.inHandler && (f.ie || f.tie) then .refused .enableInsideHandler
  else .next (s.setFlags f).advance

/-- LPM: `{r2, r1} = ROM[{r3, r2}]`, the address formed from the old r2 (R175). -/
def execLpm (s : State) : Host.Outcome State Fault Refusal :=
  let w := s.romRead (BitVec.ofNat 16 ((pair (s.x 3) (s.x 2)).toNat % 2 ^ Params.lpmAddrBits))
  .next ((s.setX 1 (lowByte w)).setX 2 (highByte w)).advance

end Sys2Proof.Machine
end

