-- ==== Sys2Proof/Machine/Immediate.lean ====
section
/-! DEFINITION. The Immediate format: LDI (R110) and LDIOA (R180). -/

namespace Sys2Proof.Machine

/-- LDI rd, imm8: `x[d] <- imm8` (R110). -/
def execLdi (d : RegIdx) (imm : Byte) (s : State) : Host.Outcome State Fault Refusal :=
  .next (s.setX d imm).advance

/-- LDIOA imm8: `IOADDR <- imm8`; no IO access happens (R180). -/
def execLdioa (imm : Byte) (s : State) : Host.Outcome State Fault Refusal :=
  .next (s.setIoaddr imm).advance

end Sys2Proof.Machine
end

