-- ==== Sys2Proof/Machine/LoadStore.lean ====
section
/-! DEFINITION. The Load format (R150) and the Store format (R155). -/

namespace Sys2Proof.Machine

/-- LD rd, base6(rx) (R150). The read happens also when the destination is r0. -/
def execLd (d : RegIdx) (base : BitVec Config.ldstBaseBits) (idx : RegIdx) (s : State) : Host.Outcome State Fault Refusal :=
  match dataAddress (effectiveAddress s base idx) with
  | none => .refused .dataAddressOutOfRange
  | some ea =>
    match s.ramRead ea with
    | none => .refused .ramByteNeverWritten
    | some v => .next (s.setX d v).advance

/-- ST rs, base6(rx) (R155). -/
def execSt (src : RegIdx) (base : BitVec Config.ldstBaseBits) (idx : RegIdx) (s : State) : Host.Outcome State Fault Refusal :=
  match dataAddress (effectiveAddress s base idx) with
  | none => .refused .dataAddressOutOfRange
  | some ea => .next (s.ramWrite ea (s.x src)).advance

end Sys2Proof.Machine
end

