-- ==== Sys2Proof/Machine/RegReg.lean ====
section
/-! DEFINITION. The Reg/Reg format, operation opcodes 0 to 14 (spec/41_regreg.md R118 to R134). -/

namespace Sys2Proof.Machine

/-- ADD ra, rb (R120). -/
def execAdd (a b : RegIdx) (s : State) : Host.Outcome State Fault Refusal :=
  writeBack s a (setAdd s.flags (s.x a) (s.x b) false)

/-- ADC ra, rb (R121). -/
def execAdc (a b : RegIdx) (s : State) : Host.Outcome State Fault Refusal :=
  writeBack s a (setAdd s.flags (s.x a) (s.x b) s.flags.c)

/-- SUB ra, rb (R122). -/
def execSub (a b : RegIdx) (s : State) : Host.Outcome State Fault Refusal :=
  writeBack s a (setSub s.flags (s.x a) (s.x b) true)

/-- SBC ra, rb (R123). -/
def execSbc (a b : RegIdx) (s : State) : Host.Outcome State Fault Refusal :=
  writeBack s a (setSub s.flags (s.x a) (s.x b) s.flags.c)

/-- AND ra, rb (R124). -/
def execAnd (a b : RegIdx) (s : State) : Host.Outcome State Fault Refusal :=
  writeBack s a (setZ s.flags (s.x a &&& s.x b))

/-- OR ra, rb (R125). -/
def execOr (a b : RegIdx) (s : State) : Host.Outcome State Fault Refusal :=
  writeBack s a (setZ s.flags (s.x a ||| s.x b))

/-- XOR ra, rb (R126). -/
def execXor (a b : RegIdx) (s : State) : Host.Outcome State Fault Refusal :=
  writeBack s a (setZ s.flags (s.x a ^^^ s.x b))

/-- NOT ra, rb: the complement of R2 goes to R1 (R127). -/
def execNot (a b : RegIdx) (s : State) : Host.Outcome State Fault Refusal :=
  writeBack s a (setZ s.flags (~~~s.x b))

/-- ADDI ra, imm4 (R128). -/
def execAddi (a : RegIdx) (imm : BitVec 4) (s : State) : Host.Outcome State Fault Refusal :=
  writeBack s a (setAdd s.flags (s.x a) (imm8 imm) false)

/-- ADCI ra, imm4 (R129). -/
def execAdci (a : RegIdx) (imm : BitVec 4) (s : State) : Host.Outcome State Fault Refusal :=
  writeBack s a (setAdd s.flags (s.x a) (imm8 imm) s.flags.c)

/-- SUBI ra, imm4 (R130). -/
def execSubi (a : RegIdx) (imm : BitVec 4) (s : State) : Host.Outcome State Fault Refusal :=
  writeBack s a (setSub s.flags (s.x a) (imm8 imm) true)

/-- SBCI ra, imm4 (R131). -/
def execSbci (a : RegIdx) (imm : BitVec 4) (s : State) : Host.Outcome State Fault Refusal :=
  writeBack s a (setSub s.flags (s.x a) (imm8 imm) s.flags.c)

/-- GETPC ra, rb: `{R2, R1} = PC + 2`, the 14-bit value zero-extended (R132). With one register other than r0 in both slots
the register takes a free value: "the source does not say which survives" (DESIGN CHOICE, log entry 5). -/
def execGetpc (a b : RegIdx) (s : State) : Host.Outcome State Fault Refusal :=
  if a = b ∧ a ≠ 0 then .next (s.setX a (Config.freeByte s.draws)).drew.advance
  else
    let v : Word := (s.pc + Params.pcRef + 2).setWidth 16
    .next ((s.setX a (lowByte v)).setX b (highByte v)).advance

/-- JMPR ra, rb: `PC = {R2, R1}`, bits 15:14 dropped (R133, D11). -/
def execJmpr (a b : RegIdx) (s : State) : Host.Outcome State Fault Refusal :=
  .next (s.setPc ((pair (s.x b) (s.x a)).setWidth 14))

/-- CMP ra, rb: the flags of SUB, no register written (R134). -/
def execCmp (a b : RegIdx) (s : State) : Host.Outcome State Fault Refusal :=
  writeFlags s (setSub s.flags (s.x a) (s.x b) true)

end Sys2Proof.Machine
end

