-- ==== Sys2Proof/Machine/Dispatch.lean ====
section
/-! DEFINITION. One arm per instruction, each one call of its meaning. -/

namespace Sys2Proof.Machine

def exec (i : Instr) (s : State) : Host.Outcome State Fault Refusal :=
  match i with
  | .ldi d imm => Sys2Proof.Machine.execLdi d imm s
  | .ldioa imm => Sys2Proof.Machine.execLdioa imm s
  | .add a b => Sys2Proof.Machine.execAdd a b s
  | .adc a b => Sys2Proof.Machine.execAdc a b s
  | .sub a b => Sys2Proof.Machine.execSub a b s
  | .sbc a b => Sys2Proof.Machine.execSbc a b s
  | .and a b => Sys2Proof.Machine.execAnd a b s
  | .or a b => Sys2Proof.Machine.execOr a b s
  | .xor a b => Sys2Proof.Machine.execXor a b s
  | .not a b => Sys2Proof.Machine.execNot a b s
  | .addi a imm => Sys2Proof.Machine.execAddi a imm s
  | .adci a imm => Sys2Proof.Machine.execAdci a imm s
  | .subi a imm => Sys2Proof.Machine.execSubi a imm s
  | .sbci a imm => Sys2Proof.Machine.execSbci a imm s
  | .getpc a b => Sys2Proof.Machine.execGetpc a b s
  | .jmpr a b => Sys2Proof.Machine.execJmpr a b s
  | .cmp a b => Sys2Proof.Machine.execCmp a b s
  | .jmp addr => Sys2Proof.Machine.execJmp addr s
  | .bcc off => Sys2Proof.Machine.execBcc off s
  | .bcs off => Sys2Proof.Machine.execBcs off s
  | .bnz off => Sys2Proof.Machine.execBnz off s
  | .bz off => Sys2Proof.Machine.execBz off s
  | .ld d base idx => Sys2Proof.Machine.execLd d base idx s
  | .st src base idx => Sys2Proof.Machine.execSt src base idx s
  | .lsr a => Sys2Proof.Machine.execLsr a s
  | .rrc a => Sys2Proof.Machine.execRrc a s
  | .lsl a => Sys2Proof.Machine.execLsl a s
  | .rlc a => Sys2Proof.Machine.execRlc a s
  | .ror a => Sys2Proof.Machine.execRor a s
  | .rol a => Sys2Proof.Machine.execRol a s
  | .stioa a => Sys2Proof.Machine.execStioa a s
  | .out a => Sys2Proof.Machine.execOut a s
  | .inp a => Sys2Proof.Machine.execIn a s
  | .cmpi imm => Sys2Proof.Machine.execCmpi imm s
  | .wait => Sys2Proof.Machine.execWait s
  | .reti => Sys2Proof.Machine.execReti s
  | .mul a => Sys2Proof.Machine.execMul a s
  | .rdf a => Sys2Proof.Machine.execRdf a s
  | .wrf a => Sys2Proof.Machine.execWrf a s
  | .lpm => Sys2Proof.Machine.execLpm s

end Sys2Proof.Machine
end

