-- ==== Sys2Proof/Machine/Cpu.lean ====
section
/-! DEFINITION. One step of the CPU at an instruction boundary (R233), and placing an instruction where the next step fetches it. -/

namespace Sys2Proof.Machine

/-- Fetch, decode, execute (R233); a word that selects no format as UNDEFINED_ENCODING says (R91). -/
def runInstruction (s : State) : Host.Outcome State Fault Refusal :=
  match decode s.fetchWord with
  | .ok i => exec i s
  | .error _ => undefinedEncodingOutcome s.fetchWord s

/-- The CPU's move: nothing, an interrupt entry, or one instruction (R233, R244, R260). -/
def cpuStep (s : State) : Host.Outcome State Fault Refusal :=
  match nextAction s with
  | .idle => .next s
  | .enter src => .next (interruptEntry src s)
  | .fetch => runInstruction s

/-- The agenda with the CPU moving next, before whatever stands on it and before a busy port finishes. -/
def State.cpuFirst (s : State) : List Turn := if s.agenda.isEmpty && !s.portBusy then [] else .cpu :: s.agenda

/-- Nothing keeps the CPU from fetching at the next step: no other agent moves first, no reset, no pause, no halt, no request. -/
def State.readyToFetch (s : State) : State :=
  { s with
    agenda := s.cpuFirst
    waiting := false
    pendT := s.pendT && !s.flags.tie
    pendE := s.pendE && !s.flags.ie
    pins := { s.pins with rstd := true, pause := false } }

/-- An instruction word placed where the next step fetches it. -/
def placeFetchWord (s : State) (w : Word) : State := s.readyToFetch.programWord (s.pc.setWidth 16) w

end Sys2Proof.Machine
end

