-- ==== Sys2Proof/Machine/Step.lean ====
section
/-! DEFINITION. One step of the machine: the move of whichever agent the agenda names, the CPU's when it names none and no serial port
is busy (R200, R206). -/

namespace Sys2Proof.Machine

/-- One agent moves (R200, R233). -/
def step (s : State) : Host.Outcome State Fault Refusal :=
  match s.turnsAhead with
  | [] => cpuStep s.takeTurn
  | .cpu :: _ => cpuStep s.takeTurn
  | .event e :: _ => .next (applyEvent e s.takeTurn)

/-- The instruction word whose bits are `w` (below bit `nbits`), stored where step fetches its next instruction, with nothing
left that would keep the next step from fetching it. -/
def State.withFetchWord (s : State) (nbits w : Nat) : State :=
  placeFetchWord s (BitVec.ofNat 16 (w % 2 ^ nbits))

end Sys2Proof.Machine
end

