-- ==== Sys2Proof/Safety.lean ====
section
/-! DEFINITION. What claims call a good state: the invariant every step keeps, and the terms they use for it. -/

namespace Sys2Proof.Machine

/-- While a handler runs both enables are clear, so a second entry cannot overwrite the backup registers (R237). -/
def State.handlerMasked (s : State) : Prop := s.inHandler = true → s.flags.ie = false ∧ s.flags.tie = false

/-- The invariant of the machine: RAM and flash in canonical form within their sizes, and no enable set inside a handler. -/
structure State.Inv (s : State) : Prop where
  ramWf : s.ram.wf Config.dmemBytes = true
  flashWf : s.flash.wf Config.flashBytes = true
  masked : s.handlerMasked

/-- The outcome is a next state. -/
def Completes (o : Host.Outcome State Fault Refusal) : Prop := ∃ t, o = .next t

end Sys2Proof.Machine
end

