-- ==== Sys2Proof/Certificates/Slice0/Obligations.lean ====
section
/-! DEFINITION. What this model claims of QCPU, for the provers: the vocabulary of the claims, then one `def Obligations.<Name> : Prop`
per claim. A claim says what the spec's rule says in plain natural-number or bit-by-bit terms, not in the model's helpers. -/

namespace Sys2Proof.Claims

open Sys2Proof.Machine

/-- Only general registers, FLAGS and PC differ between two states. -/
def OnlyRegsFlagsPc (s t : State) : Prop := t = { s with regs := t.regs, flags := t.flags, pc := t.pc }

/-- Every general register outside `dst` keeps its value. -/
def OtherRegsKept (dst : List RegIdx) (s t : State) : Prop := ∀ r, r ∉ dst → t.x r = s.x r

/-- Every RAM byte reads as before. -/
def RamKept (s t : State) : Prop := ∀ a, t.ramRead a = s.ramRead a

/-- PC has moved to the next word, modulo 2^14 (R24). -/
def PcNext (s t : State) : Prop := t.pc.toNat = (s.pc.toNat + 1) % 16384

/-- The frame of an instruction that may write the registers `dst` and the flags C and Z. -/
def ArithmeticFrame (dst : List RegIdx) (s t : State) : Prop :=
  OnlyRegsFlagsPc s t ∧ OtherRegsKept dst s t ∧ RamKept s t ∧ PcNext s t ∧
  t.flags.ie = s.flags.ie ∧ t.flags.tie = s.flags.tie

/-- The frame of an instruction that may write the registers `dst` and no flag. -/
def RegisterFrame (dst : List RegIdx) (s t : State) : Prop :=
  OnlyRegsFlagsPc s t ∧ OtherRegsKept dst s t ∧ RamKept s t ∧ PcNext s t ∧ t.flags = s.flags

/-- An addition of the naturals `p`, `q` and the carry `c` into register `a`: 8-bit result, carry out, zero. -/
def AddOutcome (i : Instr) (s : State) (a : RegIdx) (p q c : Nat) : Prop :=
  ∃ t, exec i s = .next t ∧
    (a ≠ 0 → (t.x a).toNat = (p + q + c) % 256) ∧
    (t.flags.c = true ↔ 256 ≤ p + q + c) ∧
    (t.flags.z = true ↔ (p + q + c) % 256 = 0) ∧
    ArithmeticFrame [a] s t

/-- A subtraction `p - q - borrow` into register `a`: result modulo 256, C set when there is no borrow, zero. -/
def SubOutcome (i : Instr) (s : State) (a : RegIdx) (p q borrow : Nat) : Prop :=
  ∃ t, exec i s = .next t ∧
    (a ≠ 0 → ((t.x a).toNat : Int) = ((p : Int) - q - borrow) % 256) ∧
    (t.flags.c = true ↔ q + borrow ≤ p) ∧
    (t.flags.z = true ↔ ((p : Int) - q - borrow) % 256 = 0) ∧
    ArithmeticFrame [a] s t

/-- A compare of `p` with `q`: flags as a subtraction, no register modified. -/
def CompareOutcome (i : Instr) (s : State) (p q : Nat) : Prop :=
  ∃ t, exec i s = .next t ∧ (t.flags.c = true ↔ q ≤ p) ∧ (t.flags.z = true ↔ p = q) ∧ ArithmeticFrame [] s t

/-- A result given bit by bit into register `a`, Z from that result, C as given. -/
def BitsOutcome (i : Instr) (s : State) (a : RegIdx) (bit : Nat → Bool) (c : Bool) : Prop :=
  ∃ t, exec i s = .next t ∧
    (a ≠ 0 → ∀ k, k < 8 → (t.x a).getLsbD k = bit k) ∧
    t.flags.c = c ∧
    (t.flags.z = true ↔ ∀ k, k < 8 → bit k = false) ∧
    ArithmeticFrame [a] s t

/-- A branch with the given condition: only PC changes. -/
def BranchOutcome (i : Instr) (s : State) (cond : Bool) (off : BitVec 10) : Prop :=
  ∃ t, exec i s = .next t ∧ t = { s with pc := t.pc } ∧
    (cond = true → (t.pc.toNat : Int) = ((s.pc.toNat : Int) + off.toInt) % 16384) ∧
    (cond = false → PcNext s t)

/-- The registers an instruction's rule gives as destinations. -/
def destinations : Instr → List RegIdx
  | .ldi d _ | .ld d _ _ => [d]
  | .add a _ | .adc a _ | .sub a _ | .sbc a _ | .and a _ | .or a _ | .xor a _ | .not a _ => [a]
  | .addi a _ | .adci a _ | .subi a _ | .sbci a _ => [a]
  | .getpc a b => [a, b]
  | .lsr a | .rrc a | .lsl a | .rlc a | .ror a | .rol a | .inp a | .rdf a => [a]
  | .mul _ | .lpm => [1, 2]
  | .ldioa _ | .jmpr _ _ | .cmp _ _ | .jmp _ | .bcc _ | .bcs _ | .bnz _ | .bz _ | .st _ _ _
  | .stioa _ | .out _ | .cmpi _ | .wait | .reti | .wrf _ => []

/-- The instructions R24 lists as writing PC other than by + 1. -/
def transfersControl : Instr → Bool
  | .jmp _ | .jmpr _ _ | .bcc _ | .bcs _ | .bnz _ | .bz _ | .reti => true
  | _ => false

/-- The byte behind a read-write storage address of the IO map (R201). -/
def storageByte (r : IoRegs) (n : Nat) : Option Byte :=
  match n with
  | 0x00 => some r.ddra
  | 0x01 => some r.porta
  | 0x02 => some r.ddrb
  | 0x03 => some r.portb
  | 0x06 => some (r.udiv.extractLsb' 0 8)
  | 0x07 => some (r.udiv.extractLsb' 8 8)
  | 0x0A => some r.sdiv
  | 0x0C => some r.tdiv
  | 0x0E => some (r.tcapt.extractLsb' 0 8)
  | 0x0F => some (r.tcapt.extractLsb' 8 8)
  | 0x11 => some (r.ttop.extractLsb' 0 8)
  | 0x12 => some (r.ttop.extractLsb' 8 8)
  | 0x13 => some r.pw
  | 0x14 => some (r.fdiv.extractLsb' 0 8)
  | 0x15 => some (r.fdiv.extractLsb' 8 8)
  | _ => none

/-- The device state that is not behind a storage address is the same. -/
def DevicesKept (s t : State) : Prop :=
  t.io.ubusy = s.io.ubusy ∧ t.io.utx = s.io.utx ∧ t.io.urx = s.io.urx ∧ t.io.uhb = s.io.uhb ∧
  t.io.sbusy = s.io.sbusy ∧ t.io.stx = s.io.stx ∧ t.io.srx = s.io.srx ∧ t.io.timer = s.io.timer

/-- Nothing but the IO registers, PC and the count of free values drawn differs. -/
def OnlyIoPc (s t : State) : Prop := t = { s with io := t.io, pc := t.pc, draws := t.draws }

/-- It is the CPU's move in `s`, and `s0` is the state it moves from: `s` with that turn off the agenda, on which a busy port's
completion was put where it was used up (the model's choice, log entry 33). -/
def CpuMoves (s s0 : State) : Prop :=
  (s.turnsAhead = [] ∨ ∃ rest, s.turnsAhead = .cpu :: rest) ∧ s0 = s.takeTurn

/-- After some number of steps from `s` the condition holds, unless an instruction that the model refuses has stopped the run. -/
def EventuallyUnlessStopped (s : State) (P : State → Prop) : Prop :=
  ∃ n, (∃ t, Host.Core.run Sys2Proof.core n s = .next t ∧ P t) ∨ ∃ r, Host.Core.run Sys2Proof.core n s = .refused r

/-- No reset is on the agenda. -/
def NoResetAhead (s : State) : Prop := ∀ u, Turn.event (.assertRSTD u) ∉ s.agenda

/-- The design is out of reset and not paused. -/
def Running (s : State) : Prop := s.pins.rstd = true ∧ s.pins.pause = false

/-- A timer request is pending and enabled. -/
def TimerReady (s : State) : Prop := s.pendT = true ∧ s.flags.tie = true

/-- An external request is pending and enabled. -/
def ExternalReady (s : State) : Prop := s.pendE = true ∧ s.flags.ie = true

/-- The state R235 gives after an entry from `s` with this vector. -/
def EntryEffect (s t : State) (vector : Nat) : Prop :=
  t.bak.pc = s.pc ∧ t.bak.ioaddr = s.ioaddr ∧ t.bak.flags = s.flags ∧
  t.pc.toNat = vector ∧
  t.flags.ie = false ∧ t.flags.tie = false ∧ t.flags.c = s.flags.c ∧ t.flags.z = s.flags.z ∧
  t.waiting = false ∧ t.inHandler = true ∧
  t = { s with bak := t.bak, pc := t.pc, flags := t.flags, pendT := t.pendT, pendE := t.pendE
               waiting := false, inHandler := true }

/-- `n` agents' moves in a row, all of them one CPU clock at the timer prescaler. -/
def clocks (n : Nat) : List Turn := List.replicate n (.event (.timerClock false))

end Sys2Proof.Claims

open Sys2Proof Sys2Proof.Machine Sys2Proof.Claims

/-! Encoding and the step. -/

/-- Sanity of the decoder on words written out from R82 to R93 and from section 2.6 of the test vectors. -/
def Obligations.DecoderReadsWrittenOutWords : Prop :=
  decodeTableWord 16 0b0000011110100101 = some (.ldi 7 0xA5) ∧
  decodeTableWord 16 0b0000000000010011 = some (.ldioa 0x13) ∧
  decodeTableWord 16 0b0001001100010010 = some (.sbc 1 2) ∧
  decodeTableWord 16 0b0001100100101111 = some (.adci 2 15) ∧
  decodeTableWord 16 0b1111111111111110 = some (.jmp 0x3FFE) ∧
  decodeTableWord 16 0b0010100111111111 = some (.bnz 0x1FF) ∧
  decodeTableWord 16 0b0100111101110101 = some (.ld 7 0x0F 5) ∧
  decodeTableWord 16 0b1000010100010010 = some (.st 1 0x05 2) ∧
  decodeTableWord 16 0b0001111100111100 = some (.mul 3) ∧
  decodeTableWord 16 0b0001111111111111 = some .lpm ∧
  decodeTableWord 16 0b0011000000000000 = none

/-- Decoding an encoded well-formed instruction gives it back, with every operand at every value (R82 to R90). -/
def Obligations.DecodeInvertsEncode : Prop :=
  ∀ i : Instr, i.wellFormed = true → decode (encode i) = .ok i

/-- "Every word except those with w[15:12] = 0011 decodes to exactly one instruction" (R90, R91), a well-formed one. -/
def Obligations.DecodeTotalOutsideReservedPrefix : Prop :=
  ∀ w : Word,
    (w.toNat / 4096 ≠ 3 → ∃ i, decode w = .ok i ∧ i.wellFormed = true) ∧
    (w.toNat / 4096 = 3 → decode w = .error (.undefinedEncoding w))

/-- No bit of a decoded word is dropped but the slot that WAIT, RETI and LPM ignore (R92). -/
def Obligations.EncodeInvertsDecodeUpToIgnoredSlot : Prop :=
  ∀ (w : Word) (i : Instr), decode w = .ok i →
    encode i = w ∨ ((i = .wait ∨ i = .reti ∨ i = .lpm) ∧ encode i = w &&& 0xFF0F)

/-- A step in which the CPU moves, running, with no request ready and not halted, is `exec` of the instruction that the two
flash bytes at PC decode to (R53, R54, R233). -/
def Obligations.StepRunsDecodedInstruction : Prop :=
  ∀ (s s0 : State) (i : Instr), CpuMoves s s0 → Running s → ¬TimerReady s → ¬ExternalReady s → s.waiting = false →
    decodeBytes [s.flashRead (2 * s.pc.toNat), s.flashRead (2 * s.pc.toNat + 1)] = .ok (i, []) →
    step s = exec i s0

/-- Fetching a word with prefix 0011 is refused by name (R91; the refusal is decision D3). -/
def Obligations.UndefinedWordIsRefused : Prop :=
  ∀ (s s0 : State), CpuMoves s s0 → Running s → ¬TimerReady s → ¬ExternalReady s → s.waiting = false →
    s.fetchWord.toNat / 4096 = 3 → step s = .refused (.undefinedEncoding s.fetchWord)

/-! Immediate and Reg/Reg. -/

/-- r0 reads 0 in every state and a write to it changes nothing (R21: "It will always read 0 and writes to it will be discarded"),
and a write to any other register is read back there and nowhere else. -/
def Obligations.ZeroRegisterAndRegisterWrites : Prop :=
  ∀ (s : State) (r : RegIdx) (v : Byte),
    s.x 0 = 0 ∧ s.setX 0 v = s ∧ (r ≠ 0 → (s.setX r v).x r = v) ∧ (∀ q, q ≠ r → (s.setX r v).x q = s.x q)

/-- LDI loads the 8 bits as they are and writes no flag (R110). -/
def Obligations.LdiLoadsImmediate : Prop :=
  ∀ (s : State) (d : RegIdx) (imm : Byte), ∃ t, exec (.ldi d imm) s = .next t ∧
    (d ≠ 0 → (t.x d).toNat = imm.toNat) ∧ RegisterFrame [d] s t

/-- LDIOA and STIOA change IOADDR and PC and nothing else; in particular no IO access happens (R166, R180). -/
def Obligations.LdioaAndStioaSelectIoAddress : Prop :=
  ∀ (s : State) (imm : Byte) (a : RegIdx),
    (∃ t, exec (.ldioa imm) s = .next t ∧ t = { s with ioaddr := imm, pc := t.pc } ∧ PcNext s t ∧ RamKept s t) ∧
    (∃ t, exec (.stioa a) s = .next t ∧ t = { s with ioaddr := s.x a, pc := t.pc } ∧ PcNext s t ∧ RamKept s t)

/-- ADD, ADC, ADDI, ADCI: sum modulo 256, C the carry out of bit 7, Z (R120, R121, R128, R129; the flags are decision D6). -/
def Obligations.AddInstructionsComputeSum : Prop :=
  ∀ (s : State) (a b : RegIdx) (imm : BitVec 4),
    AddOutcome (.add a b) s a (s.x a).toNat (s.x b).toNat 0 ∧
    AddOutcome (.adc a b) s a (s.x a).toNat (s.x b).toNat s.flags.c.toNat ∧
    AddOutcome (.addi a imm) s a (s.x a).toNat imm.toNat 0 ∧
    AddOutcome (.adci a imm) s a (s.x a).toNat imm.toNat s.flags.c.toNat

/-- SUB, SBC, SUBI, SBCI: difference modulo 256, C set when there is no borrow, Z (R122, R123, R130, R131; D6, D7). -/
def Obligations.SubInstructionsComputeDifference : Prop :=
  ∀ (s : State) (a b : RegIdx) (imm : BitVec 4),
    SubOutcome (.sub a b) s a (s.x a).toNat (s.x b).toNat 0 ∧
    SubOutcome (.sbc a b) s a (s.x a).toNat (s.x b).toNat (1 - s.flags.c.toNat) ∧
    SubOutcome (.subi a imm) s a (s.x a).toNat imm.toNat 0 ∧
    SubOutcome (.sbci a imm) s a (s.x a).toNat imm.toNat (1 - s.flags.c.toNat)

/-- CMP and CMPI set the flags as the subtraction would and modify no register (R134, R169; D7). -/
def Obligations.CompareSetsFlagsOnly : Prop :=
  ∀ (s : State) (a b : RegIdx) (imm : BitVec 4),
    CompareOutcome (.cmp a b) s (s.x a).toNat (s.x b).toNat ∧
    CompareOutcome (.cmpi imm) s (s.x 1).toNat imm.toNat

/-- AND, OR, XOR, NOT bit by bit; Z from the result, C unchanged (R124 to R127; D6). -/
def Obligations.LogicInstructionsBitwise : Prop :=
  ∀ (s : State) (a b : RegIdx),
    BitsOutcome (.and a b) s a (fun k => (s.x a).getLsbD k && (s.x b).getLsbD k) s.flags.c ∧
    BitsOutcome (.or a b) s a (fun k => (s.x a).getLsbD k || (s.x b).getLsbD k) s.flags.c ∧
    BitsOutcome (.xor a b) s a (fun k => (s.x a).getLsbD k != (s.x b).getLsbD k) s.flags.c ∧
    BitsOutcome (.not a b) s a (fun k => !(s.x b).getLsbD k) s.flags.c

/-- LSR, RRC, LSL, RLC: one position, the old C or 0 shifted in, C the bit shifted out, Z (R160 to R163; Z is D6). -/
def Obligations.ShiftInstructionsMoveOneBit : Prop :=
  ∀ (s : State) (a : RegIdx),
    BitsOutcome (.lsr a) s a (fun k => if k = 7 then false else (s.x a).getLsbD (k + 1)) ((s.x a).getLsbD 0) ∧
    BitsOutcome (.rrc a) s a (fun k => if k = 7 then s.flags.c else (s.x a).getLsbD (k + 1)) ((s.x a).getLsbD 0) ∧
    BitsOutcome (.lsl a) s a (fun k => if k = 0 then false else (s.x a).getLsbD (k - 1)) ((s.x a).getLsbD 7) ∧
    BitsOutcome (.rlc a) s a (fun k => if k = 0 then s.flags.c else (s.x a).getLsbD (k - 1)) ((s.x a).getLsbD 7)

/-- ROR and ROL within the 8 bits; C unchanged, Z from the result (R164, R165; D6). -/
def Obligations.RotatesStayWithinEightBits : Prop :=
  ∀ (s : State) (a : RegIdx),
    BitsOutcome (.ror a) s a (fun k => (s.x a).getLsbD ((k + 1) % 8)) s.flags.c ∧
    BitsOutcome (.rol a) s a (fun k => (s.x a).getLsbD ((k + 7) % 8)) s.flags.c

/-- SUB then SBC on a register pair is the 16-bit subtraction, C set when it does not borrow; ADD then ADC is the 16-bit
addition with its carry: the reason R119 gives for the sense of C (decision D7). -/
def Obligations.CarryChainsSixteenBitArithmetic : Prop :=
  ∀ (s : State) (al bl ah bh : RegIdx), al ≠ 0 → ah ≠ 0 → al ≠ ah → bh ≠ al →
    (∃ t u, exec (.sub al bl) s = .next t ∧ exec (.sbc ah bh) t = .next u ∧
      (((u.x ah).toNat * 256 + (u.x al).toNat : Nat) : Int) =
        ((((s.x ah).toNat * 256 + (s.x al).toNat : Nat) : Int) - (((s.x bh).toNat * 256 + (s.x bl).toNat : Nat) : Int)) % 65536 ∧
      (u.flags.c = true ↔ (s.x bh).toNat * 256 + (s.x bl).toNat ≤ (s.x ah).toNat * 256 + (s.x al).toNat)) ∧
    (∃ t u, exec (.add al bl) s = .next t ∧ exec (.adc ah bh) t = .next u ∧
      (u.x ah).toNat * 256 + (u.x al).toNat =
        (((s.x ah).toNat * 256 + (s.x al).toNat) + ((s.x bh).toNat * 256 + (s.x bl).toNat)) % 65536 ∧
      (u.flags.c = true ↔ 65536 ≤ ((s.x ah).toNat * 256 + (s.x al).toNat) + ((s.x bh).toNat * 256 + (s.x bl).toNat)))

/-- GETPC with two registers, or with r0 in both slots: R1 gets the low byte and R2 the high byte of (PC + 2) mod 2^14 (R132). -/
def Obligations.GetpcStoresReturnAddress : Prop :=
  ∀ (s : State) (a b : RegIdx), (a ≠ b ∨ a = 0) → ∃ t, exec (.getpc a b) s = .next t ∧
    (a ≠ 0 → (t.x a).toNat = (s.pc.toNat + 2) % 16384 % 256) ∧
    (b ≠ 0 → (t.x b).toNat = (s.pc.toNat + 2) % 16384 / 256) ∧
    RegisterFrame [a, b] s t

/-- GETPC with one register other than r0 in both slots runs: that register takes some value, everything else is as R132 says.
That it runs is the model's choice (log entry 5; R132 leaves the value open and decision D10 refuses). -/
def Obligations.GetpcSameRegisterRuns : Prop :=
  ∀ (s : State) (a : RegIdx), a ≠ 0 → ∃ t, exec (.getpc a a) s = .next t ∧
    t = { s with regs := t.regs, pc := t.pc, draws := t.draws } ∧ OtherRegsKept [a] s t ∧ RamKept s t ∧ PcNext s t

/-- JMPR: PC = {R2, R1}, the two bits above 14 dropped; nothing else changes (R133; the dropping is D11). -/
def Obligations.JmprJumpsToRegisterPair : Prop :=
  ∀ (s : State) (a b : RegIdx), ∃ t, exec (.jmpr a b) s = .next t ∧
    t.pc.toNat = ((s.x b).toNat * 256 + (s.x a).toNat) % 16384 ∧ t = { s with pc := t.pc } ∧ RamKept s t

/-! Jump and branch. -/

/-- "Unconditional jump. The specified immediate address is loaded into PC": the whole effect (R140). -/
def Obligations.JmpLoadsPc : Prop :=
  ∀ (s : State) (addr : CodeAddr), ∃ t, exec (.jmp addr) s = .next t ∧
    t.pc.toNat = addr.toNat ∧ t = { s with pc := t.pc } ∧ RamKept s t

/-- The four branches: the sign-extended offset is added to the branch's own address only if the condition holds (R145 to R149;
D9). -/
def Obligations.BranchesFollowTheirCondition : Prop :=
  ∀ (s : State) (off : BitVec 10),
    BranchOutcome (.bcc off) s (!s.flags.c) off ∧ BranchOutcome (.bcs off) s s.flags.c off ∧
    BranchOutcome (.bnz off) s (!s.flags.z) off ∧ BranchOutcome (.bz off) s s.flags.z off

/-- A call: GETPC then JMP reaches the subroutine, and from any later state that still holds the link pair JMPR returns to
the instruction after the JMP (R94, R132, R133). -/
def Obligations.CallAndReturn : Prop :=
  ∀ (s : State) (rl rh : RegIdx) (target : CodeAddr), rl ≠ 0 → rh ≠ 0 → rl ≠ rh →
    ∃ t u, exec (.getpc rl rh) s = .next t ∧ exec (.jmp target) t = .next u ∧ u.pc = target ∧
      ∀ v : State, v.x rl = u.x rl → v.x rh = u.x rh →
        ∃ w, exec (.jmpr rl rh) v = .next w ∧ w.pc.toNat = (s.pc.toNat + 2) % 16384

/-! Load and store. -/

/-- LD reads the byte at base plus index, an unbounded sum below 64, that has been written (R51, R52, R150). -/
def Obligations.LdLoadsRamByte : Prop :=
  ∀ (s : State) (d : RegIdx) (base : BitVec 6) (idx : RegIdx) (v : Byte),
    effectiveAddress s base idx < 64 → s.ramRead (effectiveAddress s base idx) = some v →
    effectiveAddress s base idx = base.toNat + (s.x idx).toNat ∧
    ∃ t, exec (.ld d base idx) s = .next t ∧ (d ≠ 0 → t.x d = v) ∧ RegisterFrame [d] s t

/-- ST stores the register at base plus index and changes no other byte (R51, R52, R155). -/
def Obligations.StStoresRamByte : Prop :=
  ∀ (s : State) (src : RegIdx) (base : BitVec 6) (idx : RegIdx),
    effectiveAddress s base idx < 64 →
    effectiveAddress s base idx = base.toNat + (s.x idx).toNat ∧
    ∃ t, exec (.st src base idx) s = .next t ∧
      t.ramRead (effectiveAddress s base idx) = some (s.x src) ∧
      (∀ a, a ≠ effectiveAddress s base idx → t.ramRead a = s.ramRead a) ∧
      t = { s with ram := t.ram, pc := t.pc } ∧ PcNext s t

/-- Where LD and ST stop: an address of 64 or more, and for LD a byte never written (R51, R52; the refusals are D12, D28). -/
def Obligations.DataAccessRefusals : Prop :=
  ∀ (s : State) (r : RegIdx) (base : BitVec 6) (idx : RegIdx),
    (64 ≤ base.toNat + (s.x idx).toNat →
      exec (.ld r base idx) s = .refused .dataAddressOutOfRange ∧
      exec (.st r base idx) s = .refused .dataAddressOutOfRange) ∧
    (base.toNat + (s.x idx).toNat < 64 → s.ramRead (base.toNat + (s.x idx).toNat) = none →
      exec (.ld r base idx) s = .refused .ramByteNeverWritten)

/-- A Load returns the value the latest Store to that byte put there, whatever instruction forms address it (R63). -/
def Obligations.LoadAfterStoreReturnsValue : Prop :=
  ∀ (s t : State) (src d : RegIdx) (base base' : BitVec 6) (idx idx' : RegIdx),
    exec (.st src base idx) s = .next t → d ≠ 0 →
    base'.toNat + (t.x idx').toNat = base.toNat + (s.x idx).toNat →
    ∃ u, exec (.ld d base' idx') t = .next u ∧ u.x d = s.x src

/-! EXT: multiply, ROM, FLAGS. -/

/-- MUL: the 16-bit unsigned product in r2 (high) and r1 (low), no flag written (R172; D13). -/
def Obligations.MulGivesUnsignedProduct : Prop :=
  ∀ (s : State) (a : RegIdx), ∃ t, exec (.mul a) s = .next t ∧
    (t.x 2).toNat * 256 + (t.x 1).toNat = (s.x 1).toNat * (s.x a).toNat ∧ RegisterFrame [1, 2] s t

/-- LPM: {r2, r1} = ROM[{r3, r2}], the address formed from the old r2; the word's low byte is at the even flash byte address
(R54, R55, R175; D14, D15). -/
def Obligations.LpmReadsProgramWord : Prop :=
  ∀ s : State, ∃ t, exec .lpm s = .next t ∧
    t.x 1 = s.flashRead (2 * ((s.x 3).toNat * 256 + (s.x 2).toNat)) ∧
    t.x 2 = s.flashRead (2 * ((s.x 3).toNat * 256 + (s.x 2).toNat) + 1) ∧ RegisterFrame [1, 2] s t

/-- RDF reads C, Z, IE, TIE in bits 0 to 3 and 0 above (R27, R173; D5). -/
def Obligations.RdfReadsFlags : Prop :=
  ∀ (s : State) (a : RegIdx), ∃ t, exec (.rdf a) s = .next t ∧ RegisterFrame [a] s t ∧
    (a ≠ 0 → (t.x a).toNat =
      s.flags.c.toNat + 2 * s.flags.z.toNat + 4 * s.flags.ie.toNat + 8 * s.flags.tie.toNat)

/-- WRF writes all four flags from bits 0 to 3, except that inside a handler a value that would set IE or TIE is refused
(R27, R174; D5, D19). -/
def Obligations.WrfWritesFlags : Prop :=
  ∀ (s : State) (a : RegIdx),
    (¬(s.inHandler = true ∧ ((s.x a).getLsbD 2 = true ∨ (s.x a).getLsbD 3 = true)) →
      ∃ t, exec (.wrf a) s = .next t ∧
        t.flags.c = (s.x a).getLsbD 0 ∧ t.flags.z = (s.x a).getLsbD 1 ∧
        t.flags.ie = (s.x a).getLsbD 2 ∧ t.flags.tie = (s.x a).getLsbD 3 ∧
        t = { s with flags := t.flags, pc := t.pc } ∧ PcNext s t ∧ RamKept s t) ∧
    (s.inHandler = true → ((s.x a).getLsbD 2 = true ∨ (s.x a).getLsbD 3 = true) →
      exec (.wrf a) s = .refused .enableInsideHandler)

/-! IO access. -/

/-- OUT to a storage address of the IO map writes that byte and no other, and touches no device (R57, R167, R201 to R219; which
address is the low byte is D20). That a write of UDIV or SDIV with a frame or transfer in flight, or of PW or FDIV, leaves the devices
as they are is the model's choice (log entry 32; R205 says that the effect is not stated). That a write of TTOP leaves TIMER as it is
also where TTOP falls below it, the reset R61 lists coming at the next tick, is decision D30 (R216, R217; log entry 21). -/
def Obligations.OutWritesMappedStorage : Prop :=
  ∀ (s : State) (a : RegIdx), (storageByte s.io s.ioaddr.toNat).isSome = true →
    ∃ t, exec (.out a) s = .next t ∧
      storageByte t.io s.ioaddr.toNat = some (s.x a) ∧
      (∀ n, n ≠ s.ioaddr.toNat → storageByte t.io n = storageByte s.io n) ∧
      DevicesKept s t ∧ OnlyIoPc s t ∧ PcNext s t ∧ RamKept s t ∧
      (s.ioaddr.toNat ≠ 0x0C → t.io.prescale = s.io.prescale)

/-- IN at a storage address returns the byte stored there and changes nothing but the destination register and PC, so an IN
after an OUT reads back what was written (R168, R201; that the dividers read back is D22). The model's choice: IN runs also where
UDIV, SDIV, TDIV, TCAPT, TTOP or FDIV has not been written since reset, with what the register then holds (log entry 19; there R168,
R221 and D28 refuse). -/
def Obligations.InReadsMappedStorage : Prop :=
  ∀ (s : State) (d : RegIdx) (v : Byte), storageByte s.io s.ioaddr.toNat = some v →
    ∃ t, exec (.inp d) s = .next t ∧ (d ≠ 0 → t.x d = v) ∧ RegisterFrame [d] s t

/-- GPIO: DDRx and PORTx are written by OUT and read by IN; a pin is driven to PORTx exactly where DDRx is 1, else it has the
outside level; after reset all 16 pins are inputs (R202, R203). -/
def Obligations.GpioDirectionAndPort : Prop :=
  (∀ (s : State) (a : RegIdx),
    (s.ioaddr = 0x00 → ∃ t, exec (.out a) s = .next t ∧ t.io = { s.io with ddra := s.x a }) ∧
    (s.ioaddr = 0x01 → ∃ t, exec (.out a) s = .next t ∧ t.io = { s.io with porta := s.x a }) ∧
    (s.ioaddr = 0x02 → ∃ t, exec (.out a) s = .next t ∧ t.io = { s.io with ddrb := s.x a }) ∧
    (s.ioaddr = 0x03 → ∃ t, exec (.out a) s = .next t ∧ t.io = { s.io with portb := s.x a })) ∧
  (∀ (s : State) (d : RegIdx), d ≠ 0 →
    (s.ioaddr = 0x00 → ∃ t, exec (.inp d) s = .next t ∧ t.x d = s.io.ddra) ∧
    (s.ioaddr = 0x01 → ∃ t, exec (.inp d) s = .next t ∧ t.x d = s.io.porta) ∧
    (s.ioaddr = 0x02 → ∃ t, exec (.inp d) s = .next t ∧ t.x d = s.io.ddrb) ∧
    (s.ioaddr = 0x03 → ∃ t, exec (.inp d) s = .next t ∧ t.x d = s.io.portb)) ∧
  (∀ (s : State) (k : Nat), k < 8 →
    (paLevels s).getLsbD k = (if s.io.ddra.getLsbD k then s.io.porta.getLsbD k else s.pins.pa.getLsbD k) ∧
    (pbLevels s).getLsbD k = (if s.io.ddrb.getLsbD k then s.io.portb.getLsbD k else s.pins.pb.getLsbD k)) ∧
  (∀ (s : State) (u : Unspecified), (applyEvent (.assertRSTD u) s).io.ddra = 0 ∧ (applyEvent (.assertRSTD u) s).io.ddrb = 0 ∧
    (applyEvent (.assertRSTD u) s).io.porta = 0 ∧ (applyEvent (.assertRSTD u) s).io.portb = 0)

/-- IN from PINA or PINB: every bit of an input pin is the outside level; the bits of output pins are left open (R204). -/
def Obligations.InReadsInputPins : Prop :=
  ∀ (s : State) (d : RegIdx), (s.ioaddr = 0x04 ∨ s.ioaddr = 0x05) →
    ∃ t, exec (.inp d) s = .next t ∧
      (d ≠ 0 → s.ioaddr = 0x04 → ∀ k, k < 8 → s.io.ddra.getLsbD k = false → (t.x d).getLsbD k = s.pins.pa.getLsbD k) ∧
      (d ≠ 0 → s.ioaddr = 0x05 → ∀ k, k < 8 → s.io.ddrb.getLsbD k = false → (t.x d).getLsbD k = s.pins.pb.getLsbD k) ∧
      t = { s with regs := t.regs, pc := t.pc, draws := t.draws } ∧ OtherRegsKept [d] s t ∧ PcNext s t ∧ RamKept s t

/-- IN from STAT returns {00000, UHB, SBUSY, UBUSY} and changes nothing else (R211; the places are D21); OUT to the read-only
addresses 04h, 05h, 09h changes nothing but PC (R204, R211). -/
def Obligations.StatAndReadOnlyAddresses : Prop :=
  ∀ (s : State) (a : RegIdx),
    (s.ioaddr = 0x09 → ∃ t, exec (.inp a) s = .next t ∧ RegisterFrame [a] s t ∧
      (a ≠ 0 → (t.x a).toNat = s.io.ubusy.toNat + 2 * s.io.sbusy.toNat + 4 * s.io.uhb.toNat)) ∧
    ((s.ioaddr = 0x04 ∨ s.ioaddr = 0x05 ∨ s.ioaddr = 0x09) →
      ∃ t, exec (.out a) s = .next t ∧ t = { s with pc := t.pc } ∧ PcNext s t)

/-- Where IN and OUT stop: an unassigned address, a write to a busy port (R206, R210, R220; the refusals are D22, D33). -/
def Obligations.IoRefusals : Prop :=
  ∀ (s : State) (a : RegIdx),
    (0x16 ≤ s.ioaddr.toNat → exec (.inp a) s = .refused .unassignedIoAddress ∧ exec (.out a) s = .refused .unassignedIoAddress) ∧
    (s.ioaddr = 0x08 → s.io.ubusy = true → exec (.out a) s = .refused .uartWriteWhileBusy) ∧
    (s.ioaddr = 0x0B → s.io.sbusy = true → exec (.out a) s = .refused .spiWriteWhileBusy)

/-- The capture trigger copies TIMER into TCAPT and the load trigger copies TCAPT into TIMER, whole, the written value discarded; a
loaded value above TTOP stands until the next tick, which makes it 0 (R214, R215; that it is the next tick is D30, log entry 21). A read of either address triggers nothing: it runs, the destination takes
some value and nothing else changes but PC. That it runs is the model's choice (log entry 35; R214 and R215 leave the value open, R221
and D22 refuse). -/
def Obligations.TimerCaptureAndLoad : Prop :=
  ∀ (s : State) (a : RegIdx),
    (s.ioaddr = 0x0D → ∃ t, exec (.out a) s = .next t ∧ t.io = { s.io with tcapt := s.io.timer } ∧ OnlyIoPc s t ∧ PcNext s t) ∧
    (s.ioaddr = 0x10 → ∃ t, exec (.out a) s = .next t ∧ t.io = { s.io with timer := s.io.tcapt, prescale := t.io.prescale } ∧
      OnlyIoPc s t ∧ PcNext s t ∧
      (s.io.ttop.toNat < s.io.tcapt.toNat → ∀ late, (timerTick late t).io.timer = 0)) ∧
    ((s.ioaddr = 0x0D ∨ s.ioaddr = 0x10) → ∃ t, exec (.inp a) s = .next t ∧
      t = { s with regs := t.regs, pc := t.pc, draws := t.draws } ∧ OtherRegsKept [a] s t ∧ PcNext s t ∧ RamKept s t)

/-- UART transmit: OUT to UDR while idle hands the byte over, which the record of handed bytes keeps through every event, a reset
included (R206, R268), and sets busy; when the frame has been sent the flag clears and the
byte has left on TXD once; and from every state out of reset with no reset ahead, whatever else is on the agenda and whatever
the CPU runs, a busy transmitter has sent its byte and cleared the flag after some number of steps (R206, D24). The model's
choices: that this progress comes from the turns ahead (log entry 33), that a transmitter whose busy flag a reset left set sends the
byte drawn (log entry 34), and that a frame during which UDIV is written is sent once, with its byte (log entry 32; R205 states no
effect). -/
def Obligations.UartTransmitsHandedByte : Prop :=
  (∀ (s : State) (a : RegIdx), s.ioaddr = 0x08 → s.io.ubusy = false → s.pins.rstd = true →
    ∃ t, exec (.out a) s = .next t ∧ t.io = { s.io with ubusy := true, utx := s.x a } ∧ t.uartHanded = s.uartHanded ++ [s.x a] ∧
      t = { s with io := t.io, pc := t.pc, uartHanded := t.uartHanded } ∧ PcNext s t ∧ RamKept s t ∧
      (applyEvent .uartSent t).io.ubusy = false ∧ (applyEvent .uartSent t).uartOut = s.uartOut ++ [s.x a]) ∧
  (∀ s : State, s.pins.rstd = true → NoResetAhead s → s.io.ubusy = true →
    EventuallyUnlessStopped s (fun t => t.io.ubusy = false ∧ t.uartOut = s.uartOut ++ [s.io.utx])) ∧
  (∀ (s : State) (e : Event), (applyEvent e s).uartHanded = s.uartHanded)

/-- UART receive: an arriving byte becomes URX and sets UHB, replaces an unread one and raises no interrupt (R208); IN from UDR
returns URX, clears UHB and consumes nothing: a second IN returns the same byte (R207). The model's choice: IN runs also before any
byte has been received since reset, with what URX then holds (log entry 19; there R207 and D28 refuse). -/
def Obligations.UartReceiveAndUdrRead : Prop :=
  (∀ (s : State) (b : Byte), s.pins.rstd = true →
    applyEvent (.uartReceived b) s = { s with io := { s.io with urx := b, uhb := true } }) ∧
  (∀ (s : State) (d : RegIdx), s.ioaddr = 0x08 →
    ∃ t, exec (.inp d) s = .next t ∧ (d ≠ 0 → t.x d = s.io.urx) ∧ t.io = { s.io with uhb := false } ∧
      t = { s with regs := t.regs, pc := t.pc, io := t.io } ∧ OtherRegsKept [d] s t ∧ PcNext s t ∧ RamKept s t ∧
      (d ≠ 0 → ∃ u, exec (.inp d) t = .next u ∧ u.x d = s.io.urx))

/-- An SPI transfer: OUT to SDR while idle starts it and hands the byte over, which the record of handed bytes keeps through every event,
a reset included (R210, R268); its completion stores the received byte and clears busy, and IN then
returns that byte with no side effect; and from every state out of reset with no reset ahead a busy port has finished its transfer
after some number of steps (R210, D24). The model's choices: that this progress comes from the turns ahead (log entry 33), that a port
whose busy flag a reset left set sends the byte drawn (log entry 34), and that a transfer during which SDIV is written completes once,
with its byte (log entry 32). -/
def Obligations.SpiTransferRoundTrip : Prop :=
  (∀ (s : State) (a d : RegIdx) (b : Byte), s.ioaddr = 0x0B → s.io.sbusy = false → s.pins.rstd = true →
    ∃ t, exec (.out a) s = .next t ∧ t.io = { s.io with sbusy := true, stx := s.x a } ∧ t.spiHanded = s.spiHanded ++ [s.x a] ∧
      t = { s with io := t.io, pc := t.pc, spiHanded := t.spiHanded } ∧ PcNext s t ∧ RamKept s t ∧
      (applyEvent (.spiDone b) t).spiOut = s.spiOut ++ [s.x a] ∧
      ∃ u, exec (.inp d) (applyEvent (.spiDone b) t) = .next u ∧ (d ≠ 0 → u.x d = b) ∧
        u.io = { s.io with sbusy := false, stx := s.x a, srx := b }) ∧
  (∀ s : State, s.pins.rstd = true → NoResetAhead s → s.io.sbusy = true →
    EventuallyUnlessStopped s (fun t => t.io.sbusy = false ∧ t.spiOut = s.spiOut ++ [s.io.stx])) ∧
  (∀ (s : State) (e : Event), (applyEvent e s).spiHanded = s.spiHanded)

/-- IN from SDR: idle, it returns SRX with no side effect (R210); busy, it runs, the destination takes some value and nothing else
changes but PC. The model's choices: that it runs while busy (log entry 18; R210 leaves the value open and decision D33 refuses), and
that idle it runs also before any transfer has completed since reset, with what SRX then holds (log entry 19; there R210 and D28
refuse). -/
def Obligations.SdrReadIdleAndBusy : Prop :=
  ∀ (s : State) (d : RegIdx), s.ioaddr = 0x0B →
    (s.io.sbusy = false → ∃ t, exec (.inp d) s = .next t ∧ (d ≠ 0 → t.x d = s.io.srx) ∧ RegisterFrame [d] s t) ∧
    (s.io.sbusy = true → ∃ t, exec (.inp d) s = .next t ∧ t = { s with regs := t.regs, pc := t.pc, draws := t.draws } ∧
      OtherRegsKept [d] s t ∧ PcNext s t ∧ RamKept s t)

/-! WAIT, interrupts, return. -/

/-- WAITING is set by WAIT (which has already moved PC past itself, R170 with D17), cleared when an interrupt is taken and by reset, and
while it is 1 the CPU fetches and executes nothing (R33, R233; D17, log entry 14). That the halted CPU's step answers the state it
moved from is the model's choice (log entry 29). -/
def Obligations.WaitingBit : Prop :=
  (∀ s : State, ∃ t, exec .wait s = .next t ∧ t.waiting = true ∧ t = { s with pc := t.pc, waiting := true } ∧ PcNext s t) ∧
  (∀ (s : State) (src : IrqSource), (interruptEntry src s).waiting = false) ∧
  (∀ (s : State) (u : Unspecified), (applyEvent (.assertRSTD u) s).waiting = false) ∧
  (∀ s s0 : State, CpuMoves s s0 → s.waiting = true → ¬TimerReady s → ¬ExternalReady s → step s = .next s0)

/-- "if both IE and TIE are clear ... the CPU halts forever": from a halted state with both enables clear, whatever the devices
and the outside world do short of a reset, no number of steps moves PC, a register, FLAGS, IOADDR or a RAM byte (R170). That a halted CPU's move answers a state, rather than being
stuck, is the model's choice (log entry 29). -/
def Obligations.WaitWithEnablesClearHaltsForever : Prop :=
  ∀ (n : Nat) (s : State), s.waiting = true → s.flags.ie = false → s.flags.tie = false →
    NoResetAhead s →
    ∃ t, Host.Core.run Sys2Proof.core n s = .next t ∧ t.waiting = true ∧ t.pc = s.pc ∧ t.regs = s.regs ∧
      t.flags = s.flags ∧ t.ioaddr = s.ioaddr ∧ ∀ a, t.ramRead a = s.ramRead a

/-- Interrupt entry at a boundary, the timer first: what is saved, where PC goes, what is cleared, and that nothing else changes
(R233, R234, R235). That a ready request is taken at this boundary, in this order, is the spec's reading D17 (log entry 14); whose move it
is is the model's (log entries 15, 33). -/
def Obligations.InterruptEntryAtBoundary : Prop :=
  ∀ (s s0 : State), CpuMoves s s0 → Running s →
    (TimerReady s → ∃ t, step s = .next t ∧ EntryEffect s0 t 0x0002 ∧ t.pendT = false ∧ t.pendE = s.pendE) ∧
    (¬TimerReady s → ExternalReady s → ∃ t, step s = .next t ∧ EntryEffect s0 t 0x0001 ∧ t.pendE = false ∧ t.pendT = s.pendT)

/-- RETI loads PC, IOADDR and FLAGS from the backup registers and leaves the backup registers, the general registers, RAM and
the devices as they are, in every state (R171, R238). Before any entry the backup registers hold the model's reset values (log
entry 11; there decision D18 refuses). -/
def Obligations.RetiRestoresBackup : Prop :=
  ∀ s : State, ∃ t, exec .reti s = .next t ∧ t.pc = s.bak.pc ∧ t.ioaddr = s.bak.ioaddr ∧ t.flags = s.bak.flags ∧
    t.inHandler = false ∧ t = { s with pc := t.pc, ioaddr := t.ioaddr, flags := t.flags, inHandler := false } ∧ RamKept s t

/-- Whatever a handler does to IOADDR, the flags, registers and RAM, RETI from it restores the interrupted PC, IOADDR and FLAGS,
enables included, restores nothing else, and the boundary rule is evaluated again (R238). That no register or RAM byte is restored the
spec derives from R235; that a request then pending and enabled is taken, the timer's first, is R233's evaluation, the spec's reading
D17 (log entry 14). -/
def Obligations.HandlerReturnRestoresContext : Prop :=
  ∀ (s u : State) (src : IrqSource), u.bak = (interruptEntry src s).bak →
    ∃ t, exec .reti u = .next t ∧ t.pc = s.pc ∧ t.ioaddr = s.ioaddr ∧ t.flags = s.flags ∧
      (∀ r, t.x r = u.x r) ∧ RamKept u t ∧ t.io = u.io ∧
      (Running u → u.pendT = true → s.flags.tie = true → nextAction t = .enter .timer) ∧
      (Running u → u.pendT = false → u.pendE = true → s.flags.ie = true → nextAction t = .enter .external)

/-- Both requests at one boundary: the timer handler is entered with the external request still latched, and right after that
handler's RETI, before the interrupted program continues, the external handler is entered with the same interrupted PC
(R234). -/
def Obligations.SimultaneousRequestsTimerFirst : Prop :=
  ∀ s s0 : State, CpuMoves s s0 → Running s → TimerReady s → ExternalReady s →
    ∃ t, step s = .next t ∧ t.pc.toNat = 2 ∧ t.pendE = true ∧ t.pendT = false ∧
      ∀ u u0 : State, CpuMoves u u0 → Running u → u.bak = t.bak → u.pendE = true → u.pendT = false → u.flags.ie = false →
        u.waiting = false → decode u.fetchWord = .ok .reti →
        ∃ v, step u = .next v ∧ v.pc = s.pc ∧
          ∀ v0 : State, CpuMoves v v0 → ∃ w, step v = .next w ∧ w.pc.toNat = 1 ∧ w.bak.pc = s.pc ∧
            w.bak.flags = s.flags ∧ w.pendE = false

/-- IE and TIE each enable their own source and only that one, are 0 after reset, can be set and cleared by WRF, are cleared together
by entry and restored by RETI, and no other instruction changes them (R231). That a pending enabled request is taken is the spec's
reading D17 (log entry 14); that RETI runs also before any entry, with what the backup registers then hold, is the model's choice (log entry
11; there D18 refuses); that no other instruction changes the bits is inferred from the rules of each instruction. -/
def Obligations.InterruptEnableBits : Prop :=
  (∀ s : State, (s.flags.ie = false → nextAction s ≠ .enter .external) ∧ (s.flags.tie = false → nextAction s ≠ .enter .timer) ∧
    (Running s → s.pendT = true → s.flags.tie = true → nextAction s = .enter .timer) ∧
    (Running s → s.pendT = false → s.pendE = true → s.flags.ie = true → nextAction s = .enter .external)) ∧
  (∀ (s : State) (u : Unspecified), (applyEvent (.assertRSTD u) s).flags.ie = false ∧ (applyEvent (.assertRSTD u) s).flags.tie = false) ∧
  (∀ e f : Bool, ∃ v : Byte, ∀ (s : State) (a : RegIdx), s.x a = v → s.inHandler = false →
    ∃ t, exec (.wrf a) s = .next t ∧ t.flags.ie = e ∧ t.flags.tie = f) ∧
  (∀ (s : State) (src : IrqSource), (interruptEntry src s).flags.ie = false ∧ (interruptEntry src s).flags.tie = false) ∧
  (∀ s : State, ∃ t, exec .reti s = .next t ∧ t.flags.ie = s.bak.flags.ie ∧ t.flags.tie = s.bak.flags.tie) ∧
  (∀ (i : Instr) (s t : State), exec i s = .next t → (∀ a, i ≠ .wrf a) → i ≠ .reti →
    t.flags.ie = s.flags.ie ∧ t.flags.tie = s.flags.tie)

/-- The external event is a high-to-low transition on INT; it latches PEND_E exactly when IE is 1 at that moment, and no other
level change on INT does anything (R230, R232; that a disabled event is lost is D16). -/
def Obligations.IntNegativeEdgeLatches : Prop :=
  ∀ (s : State) (level : Bool), s.pins.rstd = true →
    applyEvent (.driveINT level) s =
      { s with
        pins := { s.pins with int := level }
        pendE := s.pendE || (s.pins.int && !level && s.flags.ie) }

/-- While PAUSE is high, or RSTD is low, the CPU takes no step: no fetch and no interrupt entry (R244, R260; D31, log entry 14). That its
move then answers the state it moved from, rather than being stuck, is the model's choice (log entry 29). -/
def Obligations.PauseStopsTheCpu : Prop :=
  ∀ s s0 : State, CpuMoves s s0 → (s.pins.pause = true ∨ s.pins.rstd = false) → step s = .next s0

/-! The timer. -/

/-- Counting: from TIMER = 0 and prescaler phase 0, k * (TDIV + 1) CPU clocks with k at most TTOP leave TIMER = k and no new
request; (TTOP + 1) * (TDIV + 1) clocks bring it back to 0 with one expiry, which sets PEND_T exactly if TIE is 1. That the
period is TTOP + 1 ticks is decision D30. -/
def Obligations.TimerCountsToTop : Prop :=
  ∀ (s : State) (k : Nat), s.pins.rstd = true → s.io.timer = 0 → s.io.prescale = 0 →
    (k ≤ s.io.ttop.toNat →
      ∃ t, Host.Core.run Sys2Proof.core (k * (s.io.tdiv.toNat + 1)) { s with agenda := clocks (k * (s.io.tdiv.toNat + 1)) } = .next t ∧
        t.io.timer.toNat = k ∧ t.io.prescale = 0 ∧ t.pendT = s.pendT ∧ t.pc = s.pc) ∧
    (k = s.io.ttop.toNat + 1 →
      ∃ t, Host.Core.run Sys2Proof.core (k * (s.io.tdiv.toNat + 1)) { s with agenda := clocks (k * (s.io.tdiv.toNat + 1)) } = .next t ∧
        t.io.timer = 0 ∧ t.io.prescale = 0 ∧ t.pendT = (s.pendT || s.flags.tie) ∧ t.pc = s.pc)

/-- A tick that finds TIMER larger than TTOP resets it to 0, and no outcome other than setting PEND_T or not is allowed, and it can
be set only while TIE is 1 (R217). -/
def Obligations.TimerAboveTopResets : Prop :=
  ∀ (s : State) (late : Bool), s.pins.rstd = true → s.io.ttop.toNat < s.io.timer.toNat → s.io.prescale = s.io.tdiv →
    ∃ p, applyEvent (.timerClock late) s = { s with io := { s.io with timer := 0, prescale := 0 }, pendT := p } ∧
      (p = true → s.pendT = true ∨ s.flags.tie = true) ∧ (s.pendT = true → p = true)

/-! Whole-machine rules and invariants. -/

/-- Reset gives the values of R261, from any state and whatever the unspecified values are, and so does `State.reset`. -/
def Obligations.ResetGivesStatedValues : Prop :=
  ∀ (s : State) (u : Unspecified), ∀ t ∈ [applyEvent (.assertRSTD u) s, State.reset],
    t.pc = 0 ∧ t.ioaddr = 0 ∧ t.flags.c = false ∧ t.flags.z = false ∧ t.flags.ie = false ∧ t.flags.tie = false ∧
    t.io.ddra = 0 ∧ t.io.ddrb = 0 ∧ t.io.porta = 0 ∧ t.io.portb = 0 ∧ t.io.pw = 0x80 ∧ t.x 0 = 0

/-- PC, IOADDR and FLAGS are cleared by reset, and once RSTD is high again, whatever the devices and the outside world do first
short of another reset, they still are, and with PAUSE low the CPU's first move is to run the word at ROM word address 0
(R25). -/
def Obligations.FirstInstructionAfterResetIsWordZero : Prop :=
  ∀ (s : State) (u : Unspecified) (es : List Event) (i : Instr), (∀ v, Event.assertRSTD v ∉ es) → decode (s.romRead 0) = .ok i →
    ∃ r, r = es.foldl (fun x e => applyEvent e x) (applyEvent .releaseRSTD (applyEvent (.assertRSTD u) s)) ∧
      r.pc = 0 ∧ r.ioaddr = 0 ∧ r.flags = { c := false, z := false, ie := false, tie := false } ∧
      (r.pins.pause = false → ∀ r0, CpuMoves r r0 → step r = exec i r0)

/-- What an instruction leaves unchanged, over all 40: every general register but its rule's destinations, PC but by + 1 unless it
transfers control, every RAM byte unless it is ST, the IO registers unless it is IN or OUT, IOADDR unless it is LDIOA,
STIOA or RETI, the
record of bytes handed to the serial ports unless it is OUT, and the backup registers, the latches, the flash, the pins and the bytes
sent always (R22, R24, R28, R29, R31, R56, R57, R268). -/
def Obligations.InstructionFrames : Prop :=
  ∀ (i : Instr) (s t : State), exec i s = .next t →
    (∀ r, r ∉ destinations i → t.x r = s.x r) ∧
    (transfersControl i = false → PcNext s t) ∧
    ((∀ src base idx, i ≠ .st src base idx) → RamKept s t) ∧
    ((∀ a, i ≠ .out a) → (∀ a, i ≠ .inp a) → t.io = s.io) ∧
    ((∀ v, i ≠ .ldioa v) → (∀ a, i ≠ .stioa a) → i ≠ .reti → t.ioaddr = s.ioaddr) ∧
    t.bak = s.bak ∧ t.pendT = s.pendT ∧ t.pendE = s.pendE ∧ t.flash = s.flash ∧ t.pins = s.pins ∧ t.agenda = s.agenda ∧
    t.uartOut = s.uartOut ∧ t.spiOut = s.spiOut ∧
    ((∀ a, i ≠ .out a) → t.uartHanded = s.uartHanded ∧ t.spiHanded = s.spiHanded)

/-- No step of any agent changes program ROM (R56, R273). -/
def Obligations.NoStepChangesProgramRom : Prop :=
  ∀ s t : State, step s = .next t → t.flash = s.flash

/-- The backup registers change only by an interrupt entry, which writes the interrupted PC, IOADDR and FLAGS, or by a reset
(R31). -/
def Obligations.BackupWrittenOnlyByEntry : Prop :=
  ∀ s t : State, step s = .next t →
    t.bak = s.bak ∨
    ((TimerReady s ∨ ExternalReady s) ∧ t.bak = { pc := s.pc, ioaddr := s.ioaddr, flags := s.flags }) ∨
    ∃ u rest, s.agenda = .event (.assertRSTD u) :: rest

/-- Every step keeps the invariant: RAM and flash in canonical form within their sizes, and while IN_HANDLER is 1 both IE and TIE
are 0, so interrupts do not stack (R50, R237). The refusal of WRF inside a handler that this rests on is decision D19. -/
def Obligations.StepKeepsInvariant : Prop :=
  ∀ s t : State, s.Inv → step s = .next t → t.Inv

/-- The invariant holds right after reset. -/
def Obligations.ResetMeetsInvariant : Prop := State.reset.Inv

/-- Interrupts may not stack: from a state that meets the invariant, inside a handler, no step is an interrupt entry: the backup
registers stay as they are unless a reset comes (R237). -/
def Obligations.NoEntryInsideHandler : Prop :=
  ∀ s t : State, s.Inv → s.inHandler = true → step s = .next t →
    t.bak = s.bak ∨ ∃ u rest, s.agenda = .event (.assertRSTD u) :: rest
end

