-- ==== Sys2Proof/Laws/Decode.lean ====
section
/-! SUPPORT. Encoded words as numbers, format by format, and fields of words as numbers: with these, a field read back from an
encoded word is linear arithmetic. -/

namespace Sys2Proof

@[simp] theorem regOfBits_bitsOfReg (r : RegIdx) : regOfBits (bitsOfReg r) = r := rfl

@[simp] theorem bitsOfReg_regOfBits (v : BitVec 4) : bitsOfReg (regOfBits v) = v := rfl

@[simp] theorem bitsOfReg_toNat (r : RegIdx) : (bitsOfReg r).toNat = r.val := rfl

@[simp] theorem regOfBits_val (v : BitVec 4) : (regOfBits v).val = v.toNat := rfl

/-- A field of a word as a number. -/
theorem field_toNat (w : Word) (lo len : Nat) : (w.extractLsb' lo len).toNat = w.toNat / 2 ^ lo % 2 ^ len := by
  rw [BitVec.extractLsb'_toNat, Nat.shiftRight_eq_div_pow]

/-- A field put into a word below everything that stands there already adds its value at its place. -/
theorem or_place_toNat {n k : Nat} {x : Word} (hk : x.toNat = k) (low : Nat) (v : BitVec n) (hx : k % 2 ^ (low + n) = 0)
    (hn : low + n ≤ 16) : (x ||| place low v).toNat = k + v.toNat * 2 ^ low := by
  subst hk
  have hv : v.toNat * 2 ^ low < 2 ^ (low + n) := by
    rw [Nat.add_comm, Nat.pow_add]
    exact Nat.mul_lt_mul_of_pos_right v.isLt (Nat.two_pow_pos low)
  have hw : 2 ^ (low + n) ≤ 2 ^ 16 := Nat.pow_le_pow_right (by decide) hn
  have hs : v.toNat < 2 ^ 16 := by
    have : v.toNat * 1 ≤ v.toNat * 2 ^ low := Nat.mul_le_mul_left _ (Nat.two_pow_pos low)
    omega
  have hp : (place low v).toNat = v.toNat * 2 ^ low := by
    rw [place, BitVec.toNat_shiftLeft, BitVec.toNat_setWidth, Nat.shiftLeft_eq, Nat.mod_eq_of_lt hs, Nat.mod_eq_of_lt (by omega)]
  have hd : x.toNat = 2 ^ (low + n) * (x.toNat / 2 ^ (low + n)) := by
    have := Nat.div_add_mod x.toNat (2 ^ (low + n))
    omega
  rw [BitVec.toNat_or, hp]
  conv => lhs; rw [hd]
  rw [← Nat.two_pow_add_eq_or_of_lt hv, ← hd]

/-- A field that has the value's number is the value. -/
theorem field_eq (w : Word) (lo len : Nat) (v : BitVec len) (h : w.toNat / 2 ^ lo % 2 ^ len = v.toNat) : w.extractLsb' lo len = v :=
  BitVec.eq_of_toNat_eq (by rw [field_toNat, h])

/-! Encoded words in the layout decided (D1, D2): each field multiplied by the weight of its lowest bit. -/

open Machine.Params (layout)

/-- Reg/Reg words (R84). -/
theorem encodeRegReg_toNat (o a b : BitVec 4) :
    (encodeRegReg layout o a b).toNat = 4096 + o.toNat * 256 + a.toNat * 16 + b.toNat := by
  have h0 : (place 12 layout.regReg).toNat = 4096 := rfl
  have h1 := or_place_toNat h0 layout.opcode o (by simp only [layout]; omega) (by decide)
  have h2 := or_place_toNat h1 layout.r1 a (by simp only [layout]; omega) (by decide)
  have h3 := or_place_toNat h2 layout.r2 b (by simp only [layout]; omega) (by decide)
  rw [encodeRegReg, h3]
  simp only [layout]
  omega

/-- EXT words (R85). -/
theorem encodeExt_toNat (a e : BitVec 4) :
    (encodeExt layout a e).toNat = 7936 + a.toNat * 16 + e.toNat := by
  have h0 : (place 12 layout.regReg ||| place layout.opcode 0b1111#4).toNat = 7936 := rfl
  have h1 := or_place_toNat h0 layout.extOperand a (by simp only [layout]; omega) (by decide)
  have h2 := or_place_toNat h1 layout.extOpcode e (by simp only [layout]; omega) (by decide)
  rw [encodeExt, h2]
  simp only [layout]
  omega

/-- Conditional Branch words (R87). -/
theorem encodeBranch_toNat (c : BitVec 2) (off : BitVec Config.branchImmBits) :
    (encodeBranch layout c off).toNat = 8192 + c.toNat * 1024 + off.toNat := by
  have h0 : (place 12 layout.branch).toNat = 8192 := rfl
  have h1 := or_place_toNat h0 layout.cond c (by simp only [layout]; omega) (by decide)
  have h2 := or_place_toNat h1 layout.offset off (by simp only [layout, Config.branchImmBits]; omega) (by decide)
  rw [encodeBranch, h2]
  simp only [layout]
  omega

/-- Immediate words (R83). -/
theorem encodeImmediate_toNat (d : BitVec 4) (imm : Byte) :
    (encodeImmediate layout d imm).toNat = d.toNat * 256 + imm.toNat := by
  have h0 : (place 12 layout.immediate).toNat = 0 := rfl
  have h1 := or_place_toNat h0 layout.target d (by simp only [layout]; omega) (by decide)
  have h2 := or_place_toNat h1 layout.imm imm (by simp only [layout]; omega) (by decide)
  rw [encodeImmediate, h2]
  simp only [layout]
  omega

/-- A two-bit prefix on its own. -/
theorem place_prefix_toNat (p : BitVec 2) : (place 14 p).toNat = p.toNat * 16384 := by
  have h := or_place_toNat (x := 0#16) (k := 0) rfl 14 p (by decide) (by decide)
  rw [BitVec.zero_or] at h
  omega

/-- Load and Store words, by their two-bit prefix (R88). -/
theorem encodeLoadStore_toNat (p : BitVec 2) (base : BitVec Config.ldstBaseBits) (r x : BitVec 4) :
    (encodeLoadStore layout p base r x).toNat = p.toNat * 16384 + base.toNat * 256 + r.toNat * 16 + x.toNat := by
  have h0 : (place 14 p).toNat = p.toNat * 16384 := place_prefix_toNat p
  have h1 := or_place_toNat h0 layout.base base (by simp only [layout, Config.ldstBaseBits]; omega) (by decide)
  have h2 := or_place_toNat h1 layout.data r (by simp only [layout]; omega) (by decide)
  have h3 := or_place_toNat h2 layout.index x (by simp only [layout]; omega) (by decide)
  rw [encodeLoadStore, h3]
  simp only [layout]
  omega

/-- Jump words (R86). -/
theorem encodeJump_toNat (addr : BitVec Config.jumpAddrBits) :
    (encodeJump layout addr).toNat = 49152 + addr.toNat := by
  have h0 : (place 14 layout.jump).toNat = 49152 := rfl
  have h1 := or_place_toNat h0 layout.address addr (by simp only [layout, Config.jumpAddrBits]; omega) (by decide)
  rw [encodeJump, h1]
  simp only [layout]
  omega

/-- The decoder in the layout decided, every position written out (R82, R90). -/
theorem decode_eq (w : Word) :
    decode w =
      if w.extractLsb' 14 2 = 3 then .ok (.jmp (w.extractLsb' 0 14))
      else if w.extractLsb' 14 2 = 2 then
        .ok (.st (regOfBits (w.extractLsb' 4 4)) (w.extractLsb' 8 6) (regOfBits (w.extractLsb' 0 4)))
      else if w.extractLsb' 14 2 = 1 then
        .ok (.ld (regOfBits (w.extractLsb' 4 4)) (w.extractLsb' 8 6) (regOfBits (w.extractLsb' 0 4)))
      else if w.extractLsb' 12 4 = 0 then .ok (decodeImmediate (w.extractLsb' 8 4) (w.extractLsb' 0 8))
      else if w.extractLsb' 12 4 = 1 then
        .ok (decodeRegReg (w.extractLsb' 8 4) (w.extractLsb' 4 4) (w.extractLsb' 0 4)
          (decodeExt (w.extractLsb' 4 4) (w.extractLsb' 0 4)))
      else if w.extractLsb' 12 4 = 2 then .ok (decodeBranch (w.extractLsb' 10 2) (w.extractLsb' 0 10))
      else .error (.undefinedEncoding w) := rfl

/-- The two bytes of a word, decoded, are the word, decoded. -/
theorem decodeBytes_pair (even odd : Byte) (rest : List Byte) :
    decodeBytes (even :: odd :: rest) =
      match decode (wordOfBytes even odd) with
      | .ok i => .ok (i, rest)
      | .error e => .error e := rfl

end Sys2Proof
end

