-- ==== Sys2Proof/Laws/Flags.lean ====
section
/-! SUPPORT. What the flag computations compute, in natural numbers and bit by bit. -/

namespace Sys2Proof.Machine

@[simp] theorem Flags.withCZ_c (f : Flags) (c : Bool) (r : Byte) : (f.withCZ c r).c = c := rfl
@[simp] theorem Flags.withCZ_z (f : Flags) (c : Bool) (r : Byte) : (f.withCZ c r).z = (r == 0) := rfl
@[simp] theorem Flags.withCZ_ie (f : Flags) (c : Bool) (r : Byte) : (f.withCZ c r).ie = f.ie := rfl
@[simp] theorem Flags.withCZ_tie (f : Flags) (c : Bool) (r : Byte) : (f.withCZ c r).tie = f.tie := rfl
@[simp] theorem Flags.withZ_c (f : Flags) (r : Byte) : (f.withZ r).c = f.c := rfl
@[simp] theorem Flags.withZ_z (f : Flags) (r : Byte) : (f.withZ r).z = (r == 0) := rfl
@[simp] theorem Flags.withZ_ie (f : Flags) (r : Byte) : (f.withZ r).ie = f.ie := rfl
@[simp] theorem Flags.withZ_tie (f : Flags) (r : Byte) : (f.withZ r).tie = f.tie := rfl

/-- A byte is zero exactly when the number it stands for is. -/
theorem byte_beq_zero_iff (r : Byte) : (r == 0) = true ↔ r.toNat = 0 := by
  rw [beq_iff_eq]
  exact ⟨fun h => by simp [h], fun h => BitVec.eq_of_toNat_eq (by simpa using h)⟩

/-- A byte is zero exactly when its eight bits are. -/
theorem byte_beq_zero_iff_bits (r : Byte) : (r == 0) = true ↔ ∀ k, k < 8 → r.getLsbD k = false := by
  rw [beq_iff_eq]
  constructor
  · intro h k _
    simp [h]
  · intro h
    apply BitVec.eq_of_getLsbD_eq
    intro k hk
    simpa using h k hk

/-- The 9-bit sum of R7 is the exact sum. -/
theorem addC_sum (p q : Byte) (cin : Bool) :
    (p.setWidth 9 + q.setWidth 9 + (BitVec.ofBool cin).setWidth 9 : BitVec 9).toNat = p.toNat + q.toNat + cin.toNat := by
  have hp := p.isLt
  have hq := q.isLt
  have hc : cin.toNat ≤ 1 := by cases cin <;> decide
  simp only [BitVec.toNat_add, BitVec.toNat_setWidth, BitVec.toNat_ofBool]
  omega

/-- AddC's result is the sum modulo 256. -/
theorem addC_result (p q : Byte) (cin : Bool) : (addC p q cin).1.toNat = (p.toNat + q.toNat + cin.toNat) % 256 := by
  simp only [addC, BitVec.extractLsb'_toNat, addC_sum, Nat.shiftRight_zero]

/-- AddC's carry says whether the sum reaches 256. -/
theorem addC_carry (p q : Byte) (cin : Bool) : (addC p q cin).2 = true ↔ 256 ≤ p.toNat + q.toNat + cin.toNat := by
  have hp := p.isLt
  have hq := q.isLt
  have hc : cin.toNat ≤ 1 := by cases cin <;> decide
  simp only [addC, BitVec.getLsbD, addC_sum, Nat.testBit, Nat.shiftRight_eq_div_pow]
  simp only [Nat.one_and_eq_mod_two, bne_iff_ne, ne_eq]
  omega

/-- `setAdd` at the flag policy decided. -/
theorem setAdd_eq (f : Flags) (p q : Byte) (cin : Bool) :
    setAdd f p q cin = ((addC p q cin).1, f.withCZ (addC p q cin).2 (addC p q cin).1) := rfl

/-- `setSub` at the flag policy and the carry sense decided. -/
theorem setSub_eq (f : Flags) (p q : Byte) (cin : Bool) :
    setSub f p q cin = ((addC p (~~~q) cin).1, f.withCZ (addC p (~~~q) cin).2 (addC p (~~~q) cin).1) := by
  simp [setSub, Flags.ifWrites, Params.arithmeticWritesCZ, Params.subCarryIsNoBorrow]

/-- `setAdd`: everything it does. -/
theorem setAdd_spec (f : Flags) (p q : Byte) (cin : Bool) :
    (setAdd f p q cin).1.toNat = (p.toNat + q.toNat + cin.toNat) % 256 ∧
    ((setAdd f p q cin).2.c = true ↔ 256 ≤ p.toNat + q.toNat + cin.toNat) ∧
    ((setAdd f p q cin).2.z = true ↔ (p.toNat + q.toNat + cin.toNat) % 256 = 0) ∧
    (setAdd f p q cin).2.ie = f.ie ∧ (setAdd f p q cin).2.tie = f.tie := by
  refine ⟨addC_result p q cin, addC_carry p q cin, ?_, rfl, rfl⟩
  simp only [setAdd_eq, Flags.withCZ_z, byte_beq_zero_iff, addC_result]

/-- `setSub`: everything it does; `1 - cin` is the borrow taken in (R119). -/
theorem setSub_spec (f : Flags) (p q : Byte) (cin : Bool) :
    ((setSub f p q cin).1.toNat : Int) = ((p.toNat : Int) - q.toNat - ((1 - cin.toNat : Nat) : Int)) % 256 ∧
    ((setSub f p q cin).2.c = true ↔ q.toNat + (1 - cin.toNat) ≤ p.toNat) ∧
    ((setSub f p q cin).2.z = true ↔ ((p.toNat : Int) - q.toNat - ((1 - cin.toNat : Nat) : Int)) % 256 = 0) ∧
    (setSub f p q cin).2.ie = f.ie ∧ (setSub f p q cin).2.tie = f.tie := by
  have hp := p.isLt
  have hq := q.isLt
  have hn : (~~~q).toNat + q.toNat = 255 := by
    rw [BitVec.toNat_not]
    omega
  have hr := addC_result p (~~~q) cin
  have hk := addC_carry p (~~~q) cin
  refine ⟨?_, ?_, ?_, rfl, rfl⟩
  · simp only [setSub_eq]
    cases cin <;> simp only [Bool.toNat_true, Bool.toNat_false] at hr ⊢ <;> omega
  · simp only [setSub_eq, Flags.withCZ_c, hk]
    cases cin <;> simp only [Bool.toNat_true, Bool.toNat_false] <;> omega
  · simp only [setSub_eq, Flags.withCZ_z, byte_beq_zero_iff]
    cases cin <;> simp only [Bool.toNat_true, Bool.toNat_false] at hr ⊢ <;> omega

/-- `setZ`: the result as given, Z from it, the other flags as they were. -/
@[simp] theorem setZ_result (f : Flags) (r : Byte) : (setZ f r).1 = r := rfl
@[simp] theorem setZ_flags (f : Flags) (r : Byte) : (setZ f r).2 = f.withZ r := rfl

/-- A right shift, bit by bit. -/
theorem shiftRight_bit (f : Flags) (p : Byte) (top : Bool) (k : Nat) (hk : k < 8) :
    (shiftRight f p top).1.getLsbD k = if k = 7 then top else p.getLsbD (k + 1) := by
  have h := BitVec.getLsbD_append (x := BitVec.ofBool top) (y := p.extractLsb' 1 7) (i := k)
  refine h.trans ?_
  by_cases h7 : k = 7
  · subst h7; simp
  · have : k < 7 := by omega
    simp [h7, this, Nat.add_comm]

/-- A left shift, bit by bit. -/
theorem shiftLeft_bit (f : Flags) (p : Byte) (low : Bool) (k : Nat) (hk : k < 8) :
    (shiftLeft f p low).1.getLsbD k = if k = 0 then low else p.getLsbD (k - 1) := by
  have h := BitVec.getLsbD_append (x := p.extractLsb' 0 7) (y := BitVec.ofBool low) (i := k)
  refine h.trans ?_
  by_cases h0 : k = 0
  · subst h0; simp
  · have h1 : ¬k < 1 := by omega
    have h2 : k - 1 < 7 := by omega
    simp [h0, h2]

@[simp] theorem shiftRight_flags (f : Flags) (p : Byte) (top : Bool) :
    (shiftRight f p top).2 = f.withCZ (p.getLsbD 0) (shiftRight f p top).1 := rfl
@[simp] theorem shiftLeft_flags (f : Flags) (p : Byte) (low : Bool) :
    (shiftLeft f p low).2 = f.withCZ (p.getLsbD 7) (shiftLeft f p low).1 := rfl

/-- A rotation right, bit by bit. -/
theorem rotateRight_bit (f : Flags) (p : Byte) (k : Nat) (hk : k < 8) :
    (rotateRight f p).1.getLsbD k = p.getLsbD ((k + 1) % 8) := by
  have h := shiftRight_bit f p (p.getLsbD 0) k hk
  by_cases h7 : k = 7
  · subst h7; simpa [rotateRight, shiftRight] using h
  · rw [if_neg h7] at h
    rw [Nat.mod_eq_of_lt (by omega)]
    simpa [rotateRight, shiftRight] using h

/-- A rotation left, bit by bit. -/
theorem rotateLeft_bit (f : Flags) (p : Byte) (k : Nat) (hk : k < 8) :
    (rotateLeft f p).1.getLsbD k = p.getLsbD ((k + 7) % 8) := by
  have h := shiftLeft_bit f p (p.getLsbD 7) k hk
  by_cases h0 : k = 0
  · subst h0; simpa [rotateLeft, shiftLeft] using h
  · rw [if_neg h0] at h
    have : (k + 7) % 8 = k - 1 := by omega
    rw [this]
    simpa [rotateLeft, shiftLeft] using h

@[simp] theorem rotateRight_flags (f : Flags) (p : Byte) : (rotateRight f p).2 = f.withZ (rotateRight f p).1 := rfl
@[simp] theorem rotateLeft_flags (f : Flags) (p : Byte) : (rotateLeft f p).2 = f.withZ (rotateLeft f p).1 := rfl

/-- The FLAGS byte as a number: C, Z, IE, TIE in bits 0 to 3, 0 above (R27). -/
theorem Flags.toByte_toNat (f : Flags) :
    f.toByte.toNat = f.c.toNat + 2 * f.z.toNat + 4 * f.ie.toNat + 8 * f.tie.toNat := by
  obtain ⟨c, z, ie, tie⟩ := f
  cases c <;> cases z <;> cases ie <;> cases tie <;> rfl

@[simp] theorem Flags.ofByte_c (v : Byte) : (Flags.ofByte v).c = v.getLsbD 0 := rfl
@[simp] theorem Flags.ofByte_z (v : Byte) : (Flags.ofByte v).z = v.getLsbD 1 := rfl
@[simp] theorem Flags.ofByte_ie (v : Byte) : (Flags.ofByte v).ie = v.getLsbD 2 := rfl
@[simp] theorem Flags.ofByte_tie (v : Byte) : (Flags.ofByte v).tie = v.getLsbD 3 := rfl

/-- What RDF reads, WRF writes back. -/
@[simp] theorem Flags.ofByte_toByte (f : Flags) : Flags.ofByte f.toByte = f := by
  obtain ⟨c, z, ie, tie⟩ := f
  cases c <;> cases z <;> cases ie <;> cases tie <;> rfl

/-- The 4-bit immediate is zero-extended (R89). -/
@[simp] theorem imm8_toNat (imm : BitVec 4) : (imm8 imm).toNat = imm.toNat := by
  have := imm.isLt
  simp only [imm8, BitVec.toNat_setWidth]
  omega

@[simp] theorem pair_toNat (high low : Byte) : (pair high low).toNat = high.toNat * 256 + low.toNat := by
  have := low.isLt
  refine (BitVec.toNat_append high low).trans ?_
  rw [Nat.shiftLeft_eq, Nat.mul_comm, ← Nat.two_pow_add_eq_or_of_lt this, Nat.mul_comm]

@[simp] theorem lowByte_toNat (v : Word) : (lowByte v).toNat = v.toNat % 256 := by
  simp [lowByte, BitVec.extractLsb'_toNat]

@[simp] theorem highByte_toNat (v : Word) : (highByte v).toNat = v.toNat / 256 := by
  have := v.isLt
  simp only [highByte, BitVec.extractLsb'_toNat, Nat.shiftRight_eq_div_pow]
  omega

@[simp] theorem lowByte_pair (high low : Byte) : lowByte (pair high low) = low := by
  apply BitVec.eq_of_toNat_eq
  have := low.isLt
  simp only [lowByte_toNat, pair_toNat]
  omega

@[simp] theorem highByte_pair (high low : Byte) : highByte (pair high low) = high := by
  apply BitVec.eq_of_toNat_eq
  have := low.isLt
  simp only [highByte_toNat, pair_toNat]
  omega

end Sys2Proof.Machine
end

