-- ==== Sys2Proof/Laws/State.lean ====
section
/-! SUPPORT. One lemma per field of State and per named update, so that no proof unfolds a record update, and the laws of the
register accessors. -/

namespace Sys2Proof.Machine

@[simp] theorem State.setPc_regs (s : State) (t : CodeAddr) : (s.setPc t).regs = s.regs := rfl
@[simp] theorem State.setPc_pc (s : State) (t : CodeAddr) : (s.setPc t).pc = t := rfl
@[simp] theorem State.setPc_ioaddr (s : State) (t : CodeAddr) : (s.setPc t).ioaddr = s.ioaddr := rfl
@[simp] theorem State.setPc_flags (s : State) (t : CodeAddr) : (s.setPc t).flags = s.flags := rfl
@[simp] theorem State.setPc_bak (s : State) (t : CodeAddr) : (s.setPc t).bak = s.bak := rfl
@[simp] theorem State.setPc_pendT (s : State) (t : CodeAddr) : (s.setPc t).pendT = s.pendT := rfl
@[simp] theorem State.setPc_pendE (s : State) (t : CodeAddr) : (s.setPc t).pendE = s.pendE := rfl
@[simp] theorem State.setPc_waiting (s : State) (t : CodeAddr) : (s.setPc t).waiting = s.waiting := rfl
@[simp] theorem State.setPc_inHandler (s : State) (t : CodeAddr) : (s.setPc t).inHandler = s.inHandler := rfl
@[simp] theorem State.setPc_ram (s : State) (t : CodeAddr) : (s.setPc t).ram = s.ram := rfl
@[simp] theorem State.setPc_flash (s : State) (t : CodeAddr) : (s.setPc t).flash = s.flash := rfl
@[simp] theorem State.setPc_io (s : State) (t : CodeAddr) : (s.setPc t).io = s.io := rfl
@[simp] theorem State.setPc_pins (s : State) (t : CodeAddr) : (s.setPc t).pins = s.pins := rfl
@[simp] theorem State.setPc_uartOut (s : State) (t : CodeAddr) : (s.setPc t).uartOut = s.uartOut := rfl
@[simp] theorem State.setPc_spiOut (s : State) (t : CodeAddr) : (s.setPc t).spiOut = s.spiOut := rfl
@[simp] theorem State.setPc_uartHanded (s : State) (t : CodeAddr) : (s.setPc t).uartHanded = s.uartHanded := rfl
@[simp] theorem State.setPc_spiHanded (s : State) (t : CodeAddr) : (s.setPc t).spiHanded = s.spiHanded := rfl
@[simp] theorem State.setPc_flashStartup (s : State) (t : CodeAddr) : (s.setPc t).flashStartup = s.flashStartup := rfl
@[simp] theorem State.setPc_agenda (s : State) (t : CodeAddr) : (s.setPc t).agenda = s.agenda := rfl
@[simp] theorem State.setPc_draws (s : State) (t : CodeAddr) : (s.setPc t).draws = s.draws := rfl

@[simp] theorem State.advance_regs (s : State) : (s.advance).regs = s.regs := rfl
@[simp] theorem State.advance_pc (s : State) : (s.advance).pc = s.pc + 1 := rfl
@[simp] theorem State.advance_ioaddr (s : State) : (s.advance).ioaddr = s.ioaddr := rfl
@[simp] theorem State.advance_flags (s : State) : (s.advance).flags = s.flags := rfl
@[simp] theorem State.advance_bak (s : State) : (s.advance).bak = s.bak := rfl
@[simp] theorem State.advance_pendT (s : State) : (s.advance).pendT = s.pendT := rfl
@[simp] theorem State.advance_pendE (s : State) : (s.advance).pendE = s.pendE := rfl
@[simp] theorem State.advance_waiting (s : State) : (s.advance).waiting = s.waiting := rfl
@[simp] theorem State.advance_inHandler (s : State) : (s.advance).inHandler = s.inHandler := rfl
@[simp] theorem State.advance_ram (s : State) : (s.advance).ram = s.ram := rfl
@[simp] theorem State.advance_flash (s : State) : (s.advance).flash = s.flash := rfl
@[simp] theorem State.advance_io (s : State) : (s.advance).io = s.io := rfl
@[simp] theorem State.advance_pins (s : State) : (s.advance).pins = s.pins := rfl
@[simp] theorem State.advance_uartOut (s : State) : (s.advance).uartOut = s.uartOut := rfl
@[simp] theorem State.advance_spiOut (s : State) : (s.advance).spiOut = s.spiOut := rfl
@[simp] theorem State.advance_uartHanded (s : State) : (s.advance).uartHanded = s.uartHanded := rfl
@[simp] theorem State.advance_spiHanded (s : State) : (s.advance).spiHanded = s.spiHanded := rfl
@[simp] theorem State.advance_flashStartup (s : State) : (s.advance).flashStartup = s.flashStartup := rfl
@[simp] theorem State.advance_agenda (s : State) : (s.advance).agenda = s.agenda := rfl
@[simp] theorem State.advance_draws (s : State) : (s.advance).draws = s.draws := rfl

@[simp] theorem State.setFlags_regs (s : State) (f : Flags) : (s.setFlags f).regs = s.regs := rfl
@[simp] theorem State.setFlags_pc (s : State) (f : Flags) : (s.setFlags f).pc = s.pc := rfl
@[simp] theorem State.setFlags_ioaddr (s : State) (f : Flags) : (s.setFlags f).ioaddr = s.ioaddr := rfl
@[simp] theorem State.setFlags_flags (s : State) (f : Flags) : (s.setFlags f).flags = f := rfl
@[simp] theorem State.setFlags_bak (s : State) (f : Flags) : (s.setFlags f).bak = s.bak := rfl
@[simp] theorem State.setFlags_pendT (s : State) (f : Flags) : (s.setFlags f).pendT = s.pendT := rfl
@[simp] theorem State.setFlags_pendE (s : State) (f : Flags) : (s.setFlags f).pendE = s.pendE := rfl
@[simp] theorem State.setFlags_waiting (s : State) (f : Flags) : (s.setFlags f).waiting = s.waiting := rfl
@[simp] theorem State.setFlags_inHandler (s : State) (f : Flags) : (s.setFlags f).inHandler = s.inHandler := rfl
@[simp] theorem State.setFlags_ram (s : State) (f : Flags) : (s.setFlags f).ram = s.ram := rfl
@[simp] theorem State.setFlags_flash (s : State) (f : Flags) : (s.setFlags f).flash = s.flash := rfl
@[simp] theorem State.setFlags_io (s : State) (f : Flags) : (s.setFlags f).io = s.io := rfl
@[simp] theorem State.setFlags_pins (s : State) (f : Flags) : (s.setFlags f).pins = s.pins := rfl
@[simp] theorem State.setFlags_uartOut (s : State) (f : Flags) : (s.setFlags f).uartOut = s.uartOut := rfl
@[simp] theorem State.setFlags_spiOut (s : State) (f : Flags) : (s.setFlags f).spiOut = s.spiOut := rfl
@[simp] theorem State.setFlags_uartHanded (s : State) (f : Flags) : (s.setFlags f).uartHanded = s.uartHanded := rfl
@[simp] theorem State.setFlags_spiHanded (s : State) (f : Flags) : (s.setFlags f).spiHanded = s.spiHanded := rfl
@[simp] theorem State.setFlags_flashStartup (s : State) (f : Flags) : (s.setFlags f).flashStartup = s.flashStartup := rfl
@[simp] theorem State.setFlags_agenda (s : State) (f : Flags) : (s.setFlags f).agenda = s.agenda := rfl
@[simp] theorem State.setFlags_draws (s : State) (f : Flags) : (s.setFlags f).draws = s.draws := rfl

@[simp] theorem State.setIoaddr_regs (s : State) (v : Byte) : (s.setIoaddr v).regs = s.regs := rfl
@[simp] theorem State.setIoaddr_pc (s : State) (v : Byte) : (s.setIoaddr v).pc = s.pc := rfl
@[simp] theorem State.setIoaddr_ioaddr (s : State) (v : Byte) : (s.setIoaddr v).ioaddr = v := rfl
@[simp] theorem State.setIoaddr_flags (s : State) (v : Byte) : (s.setIoaddr v).flags = s.flags := rfl
@[simp] theorem State.setIoaddr_bak (s : State) (v : Byte) : (s.setIoaddr v).bak = s.bak := rfl
@[simp] theorem State.setIoaddr_pendT (s : State) (v : Byte) : (s.setIoaddr v).pendT = s.pendT := rfl
@[simp] theorem State.setIoaddr_pendE (s : State) (v : Byte) : (s.setIoaddr v).pendE = s.pendE := rfl
@[simp] theorem State.setIoaddr_waiting (s : State) (v : Byte) : (s.setIoaddr v).waiting = s.waiting := rfl
@[simp] theorem State.setIoaddr_inHandler (s : State) (v : Byte) : (s.setIoaddr v).inHandler = s.inHandler := rfl
@[simp] theorem State.setIoaddr_ram (s : State) (v : Byte) : (s.setIoaddr v).ram = s.ram := rfl
@[simp] theorem State.setIoaddr_flash (s : State) (v : Byte) : (s.setIoaddr v).flash = s.flash := rfl
@[simp] theorem State.setIoaddr_io (s : State) (v : Byte) : (s.setIoaddr v).io = s.io := rfl
@[simp] theorem State.setIoaddr_pins (s : State) (v : Byte) : (s.setIoaddr v).pins = s.pins := rfl
@[simp] theorem State.setIoaddr_uartOut (s : State) (v : Byte) : (s.setIoaddr v).uartOut = s.uartOut := rfl
@[simp] theorem State.setIoaddr_spiOut (s : State) (v : Byte) : (s.setIoaddr v).spiOut = s.spiOut := rfl
@[simp] theorem State.setIoaddr_uartHanded (s : State) (v : Byte) : (s.setIoaddr v).uartHanded = s.uartHanded := rfl
@[simp] theorem State.setIoaddr_spiHanded (s : State) (v : Byte) : (s.setIoaddr v).spiHanded = s.spiHanded := rfl
@[simp] theorem State.setIoaddr_flashStartup (s : State) (v : Byte) : (s.setIoaddr v).flashStartup = s.flashStartup := rfl
@[simp] theorem State.setIoaddr_agenda (s : State) (v : Byte) : (s.setIoaddr v).agenda = s.agenda := rfl
@[simp] theorem State.setIoaddr_draws (s : State) (v : Byte) : (s.setIoaddr v).draws = s.draws := rfl

@[simp] theorem State.setIo_regs (s : State) (r : IoRegs) : (s.setIo r).regs = s.regs := rfl
@[simp] theorem State.setIo_pc (s : State) (r : IoRegs) : (s.setIo r).pc = s.pc := rfl
@[simp] theorem State.setIo_ioaddr (s : State) (r : IoRegs) : (s.setIo r).ioaddr = s.ioaddr := rfl
@[simp] theorem State.setIo_flags (s : State) (r : IoRegs) : (s.setIo r).flags = s.flags := rfl
@[simp] theorem State.setIo_bak (s : State) (r : IoRegs) : (s.setIo r).bak = s.bak := rfl
@[simp] theorem State.setIo_pendT (s : State) (r : IoRegs) : (s.setIo r).pendT = s.pendT := rfl
@[simp] theorem State.setIo_pendE (s : State) (r : IoRegs) : (s.setIo r).pendE = s.pendE := rfl
@[simp] theorem State.setIo_waiting (s : State) (r : IoRegs) : (s.setIo r).waiting = s.waiting := rfl
@[simp] theorem State.setIo_inHandler (s : State) (r : IoRegs) : (s.setIo r).inHandler = s.inHandler := rfl
@[simp] theorem State.setIo_ram (s : State) (r : IoRegs) : (s.setIo r).ram = s.ram := rfl
@[simp] theorem State.setIo_flash (s : State) (r : IoRegs) : (s.setIo r).flash = s.flash := rfl
@[simp] theorem State.setIo_io (s : State) (r : IoRegs) : (s.setIo r).io = r := rfl
@[simp] theorem State.setIo_pins (s : State) (r : IoRegs) : (s.setIo r).pins = s.pins := rfl
@[simp] theorem State.setIo_uartOut (s : State) (r : IoRegs) : (s.setIo r).uartOut = s.uartOut := rfl
@[simp] theorem State.setIo_spiOut (s : State) (r : IoRegs) : (s.setIo r).spiOut = s.spiOut := rfl
@[simp] theorem State.setIo_uartHanded (s : State) (r : IoRegs) : (s.setIo r).uartHanded = s.uartHanded := rfl
@[simp] theorem State.setIo_spiHanded (s : State) (r : IoRegs) : (s.setIo r).spiHanded = s.spiHanded := rfl
@[simp] theorem State.setIo_flashStartup (s : State) (r : IoRegs) : (s.setIo r).flashStartup = s.flashStartup := rfl
@[simp] theorem State.setIo_agenda (s : State) (r : IoRegs) : (s.setIo r).agenda = s.agenda := rfl
@[simp] theorem State.setIo_draws (s : State) (r : IoRegs) : (s.setIo r).draws = s.draws := rfl

@[simp] theorem State.drew_regs (s : State) : (s.drew).regs = s.regs := rfl
@[simp] theorem State.drew_pc (s : State) : (s.drew).pc = s.pc := rfl
@[simp] theorem State.drew_ioaddr (s : State) : (s.drew).ioaddr = s.ioaddr := rfl
@[simp] theorem State.drew_flags (s : State) : (s.drew).flags = s.flags := rfl
@[simp] theorem State.drew_bak (s : State) : (s.drew).bak = s.bak := rfl
@[simp] theorem State.drew_pendT (s : State) : (s.drew).pendT = s.pendT := rfl
@[simp] theorem State.drew_pendE (s : State) : (s.drew).pendE = s.pendE := rfl
@[simp] theorem State.drew_waiting (s : State) : (s.drew).waiting = s.waiting := rfl
@[simp] theorem State.drew_inHandler (s : State) : (s.drew).inHandler = s.inHandler := rfl
@[simp] theorem State.drew_ram (s : State) : (s.drew).ram = s.ram := rfl
@[simp] theorem State.drew_flash (s : State) : (s.drew).flash = s.flash := rfl
@[simp] theorem State.drew_io (s : State) : (s.drew).io = s.io := rfl
@[simp] theorem State.drew_pins (s : State) : (s.drew).pins = s.pins := rfl
@[simp] theorem State.drew_uartOut (s : State) : (s.drew).uartOut = s.uartOut := rfl
@[simp] theorem State.drew_spiOut (s : State) : (s.drew).spiOut = s.spiOut := rfl
@[simp] theorem State.drew_uartHanded (s : State) : (s.drew).uartHanded = s.uartHanded := rfl
@[simp] theorem State.drew_spiHanded (s : State) : (s.drew).spiHanded = s.spiHanded := rfl
@[simp] theorem State.drew_flashStartup (s : State) : (s.drew).flashStartup = s.flashStartup := rfl
@[simp] theorem State.drew_agenda (s : State) : (s.drew).agenda = s.agenda := rfl
@[simp] theorem State.drew_draws (s : State) : (s.drew).draws = s.draws + 1 := rfl

@[simp] theorem State.ramWrite_regs (s : State) (ea : Nat) (v : Byte) : (s.ramWrite ea v).regs = s.regs := rfl
@[simp] theorem State.ramWrite_pc (s : State) (ea : Nat) (v : Byte) : (s.ramWrite ea v).pc = s.pc := rfl
@[simp] theorem State.ramWrite_ioaddr (s : State) (ea : Nat) (v : Byte) : (s.ramWrite ea v).ioaddr = s.ioaddr := rfl
@[simp] theorem State.ramWrite_flags (s : State) (ea : Nat) (v : Byte) : (s.ramWrite ea v).flags = s.flags := rfl
@[simp] theorem State.ramWrite_bak (s : State) (ea : Nat) (v : Byte) : (s.ramWrite ea v).bak = s.bak := rfl
@[simp] theorem State.ramWrite_pendT (s : State) (ea : Nat) (v : Byte) : (s.ramWrite ea v).pendT = s.pendT := rfl
@[simp] theorem State.ramWrite_pendE (s : State) (ea : Nat) (v : Byte) : (s.ramWrite ea v).pendE = s.pendE := rfl
@[simp] theorem State.ramWrite_waiting (s : State) (ea : Nat) (v : Byte) : (s.ramWrite ea v).waiting = s.waiting := rfl
@[simp] theorem State.ramWrite_inHandler (s : State) (ea : Nat) (v : Byte) : (s.ramWrite ea v).inHandler = s.inHandler := rfl
@[simp] theorem State.ramWrite_ram (s : State) (ea : Nat) (v : Byte) : (s.ramWrite ea v).ram = s.ram.write ea v := rfl
@[simp] theorem State.ramWrite_flash (s : State) (ea : Nat) (v : Byte) : (s.ramWrite ea v).flash = s.flash := rfl
@[simp] theorem State.ramWrite_io (s : State) (ea : Nat) (v : Byte) : (s.ramWrite ea v).io = s.io := rfl
@[simp] theorem State.ramWrite_pins (s : State) (ea : Nat) (v : Byte) : (s.ramWrite ea v).pins = s.pins := rfl
@[simp] theorem State.ramWrite_uartOut (s : State) (ea : Nat) (v : Byte) : (s.ramWrite ea v).uartOut = s.uartOut := rfl
@[simp] theorem State.ramWrite_spiOut (s : State) (ea : Nat) (v : Byte) : (s.ramWrite ea v).spiOut = s.spiOut := rfl
@[simp] theorem State.ramWrite_uartHanded (s : State) (ea : Nat) (v : Byte) : (s.ramWrite ea v).uartHanded = s.uartHanded := rfl
@[simp] theorem State.ramWrite_spiHanded (s : State) (ea : Nat) (v : Byte) : (s.ramWrite ea v).spiHanded = s.spiHanded := rfl
@[simp] theorem State.ramWrite_flashStartup (s : State) (ea : Nat) (v : Byte) : (s.ramWrite ea v).flashStartup = s.flashStartup := rfl
@[simp] theorem State.ramWrite_agenda (s : State) (ea : Nat) (v : Byte) : (s.ramWrite ea v).agenda = s.agenda := rfl
@[simp] theorem State.ramWrite_draws (s : State) (ea : Nat) (v : Byte) : (s.ramWrite ea v).draws = s.draws := rfl

@[simp] theorem State.setX_pc (s : State) (i : RegIdx) (v : Byte) : (s.setX i v).pc = s.pc := by
  obtain ⟨_ | n, h⟩ := i <;> rfl
@[simp] theorem State.setX_ioaddr (s : State) (i : RegIdx) (v : Byte) : (s.setX i v).ioaddr = s.ioaddr := by
  obtain ⟨_ | n, h⟩ := i <;> rfl
@[simp] theorem State.setX_flags (s : State) (i : RegIdx) (v : Byte) : (s.setX i v).flags = s.flags := by
  obtain ⟨_ | n, h⟩ := i <;> rfl
@[simp] theorem State.setX_bak (s : State) (i : RegIdx) (v : Byte) : (s.setX i v).bak = s.bak := by
  obtain ⟨_ | n, h⟩ := i <;> rfl
@[simp] theorem State.setX_pendT (s : State) (i : RegIdx) (v : Byte) : (s.setX i v).pendT = s.pendT := by
  obtain ⟨_ | n, h⟩ := i <;> rfl
@[simp] theorem State.setX_pendE (s : State) (i : RegIdx) (v : Byte) : (s.setX i v).pendE = s.pendE := by
  obtain ⟨_ | n, h⟩ := i <;> rfl
@[simp] theorem State.setX_waiting (s : State) (i : RegIdx) (v : Byte) : (s.setX i v).waiting = s.waiting := by
  obtain ⟨_ | n, h⟩ := i <;> rfl
@[simp] theorem State.setX_inHandler (s : State) (i : RegIdx) (v : Byte) : (s.setX i v).inHandler = s.inHandler := by
  obtain ⟨_ | n, h⟩ := i <;> rfl
@[simp] theorem State.setX_ram (s : State) (i : RegIdx) (v : Byte) : (s.setX i v).ram = s.ram := by
  obtain ⟨_ | n, h⟩ := i <;> rfl
@[simp] theorem State.setX_flash (s : State) (i : RegIdx) (v : Byte) : (s.setX i v).flash = s.flash := by
  obtain ⟨_ | n, h⟩ := i <;> rfl
@[simp] theorem State.setX_io (s : State) (i : RegIdx) (v : Byte) : (s.setX i v).io = s.io := by
  obtain ⟨_ | n, h⟩ := i <;> rfl
@[simp] theorem State.setX_pins (s : State) (i : RegIdx) (v : Byte) : (s.setX i v).pins = s.pins := by
  obtain ⟨_ | n, h⟩ := i <;> rfl
@[simp] theorem State.setX_uartOut (s : State) (i : RegIdx) (v : Byte) : (s.setX i v).uartOut = s.uartOut := by
  obtain ⟨_ | n, h⟩ := i <;> rfl
@[simp] theorem State.setX_spiOut (s : State) (i : RegIdx) (v : Byte) : (s.setX i v).spiOut = s.spiOut := by
  obtain ⟨_ | n, h⟩ := i <;> rfl
@[simp] theorem State.setX_uartHanded (s : State) (i : RegIdx) (v : Byte) : (s.setX i v).uartHanded = s.uartHanded := by
  obtain ⟨_ | n, h⟩ := i <;> rfl
@[simp] theorem State.setX_spiHanded (s : State) (i : RegIdx) (v : Byte) : (s.setX i v).spiHanded = s.spiHanded := by
  obtain ⟨_ | n, h⟩ := i <;> rfl
@[simp] theorem State.setX_flashStartup (s : State) (i : RegIdx) (v : Byte) : (s.setX i v).flashStartup = s.flashStartup := by
  obtain ⟨_ | n, h⟩ := i <;> rfl
@[simp] theorem State.setX_agenda (s : State) (i : RegIdx) (v : Byte) : (s.setX i v).agenda = s.agenda := by
  obtain ⟨_ | n, h⟩ := i <;> rfl
@[simp] theorem State.setX_draws (s : State) (i : RegIdx) (v : Byte) : (s.setX i v).draws = s.draws := by
  obtain ⟨_ | n, h⟩ := i <;> rfl

/-! Registers. -/

@[simp] theorem State.x_zero (s : State) : s.x 0 = 0 := rfl

@[simp] theorem State.setX_zero (s : State) (v : Byte) : s.setX 0 v = s := rfl

@[simp] theorem State.setX_x_same (s : State) (i : RegIdx) (v : Byte) (h : i ≠ 0) : (s.setX i v).x i = v := by
  obtain ⟨_ | n, hn⟩ := i
  · exact absurd rfl h
  · simp [State.setX, State.x]

@[simp] theorem State.setX_x_ne (s : State) (i j : RegIdx) (v : Byte) (h : j ≠ i) : (s.setX i v).x j = s.x j := by
  obtain ⟨_ | n, hn⟩ := i
  · rfl
  · obtain ⟨_ | m, hm⟩ := j
    · rfl
    · have : n ≠ m := fun e => h (by simp [e])
      simp [State.setX, State.x, this]

/-- Only the register file differs after a register write. -/
theorem State.setX_eq (s : State) (i : RegIdx) (v : Byte) : s.setX i v = { s with regs := (s.setX i v).regs } := by
  obtain ⟨_ | n, h⟩ := i <;> rfl

/-- Two states with the same register file read the same registers. -/
theorem State.x_congr (s t : State) (h : s.regs = t.regs) (i : RegIdx) : s.x i = t.x i := by
  obtain ⟨_ | n, hn⟩ := i
  · rfl
  · simp [State.x, h]

@[simp] theorem State.setPc_x (s : State) (t : CodeAddr) (i : RegIdx) : (s.setPc t).x i = s.x i := rfl
@[simp] theorem State.advance_x (s : State) (i : RegIdx) : (s.advance).x i = s.x i := rfl
@[simp] theorem State.setFlags_x (s : State) (f : Flags) (i : RegIdx) : (s.setFlags f).x i = s.x i := rfl
@[simp] theorem State.setIoaddr_x (s : State) (v : Byte) (i : RegIdx) : (s.setIoaddr v).x i = s.x i := rfl
@[simp] theorem State.setIo_x (s : State) (r : IoRegs) (i : RegIdx) : (s.setIo r).x i = s.x i := rfl
@[simp] theorem State.drew_x (s : State) (i : RegIdx) : (s.drew).x i = s.x i := rfl
@[simp] theorem State.ramWrite_x (s : State) (ea : Nat) (v : Byte) (i : RegIdx) : (s.ramWrite ea v).x i = s.x i := rfl

/-! Reads of memory through updates that are not writes to it. -/

@[simp] theorem State.setPc_ramRead (s : State) (t : CodeAddr) (a : Nat) : (s.setPc t).ramRead a = s.ramRead a := rfl
@[simp] theorem State.advance_ramRead (s : State) (a : Nat) : (s.advance).ramRead a = s.ramRead a := rfl
@[simp] theorem State.setFlags_ramRead (s : State) (f : Flags) (a : Nat) : (s.setFlags f).ramRead a = s.ramRead a := rfl
@[simp] theorem State.setIoaddr_ramRead (s : State) (v : Byte) (a : Nat) : (s.setIoaddr v).ramRead a = s.ramRead a := rfl
@[simp] theorem State.setIo_ramRead (s : State) (r : IoRegs) (a : Nat) : (s.setIo r).ramRead a = s.ramRead a := rfl
@[simp] theorem State.drew_ramRead (s : State) (a : Nat) : (s.drew).ramRead a = s.ramRead a := rfl
@[simp] theorem State.setX_ramRead (s : State) (i : RegIdx) (v : Byte) (a : Nat) : (s.setX i v).ramRead a = s.ramRead a := by
  simp [State.ramRead]

end Sys2Proof.Machine
end

