-- ==== Sys2Proof/Laws/Memory.lean ====
section
/-! SUPPORT. The laws of memory: read after write, and that a write keeps the canonical form. -/

namespace Sys2Proof.Machine

/-- A byte reads back where it was written. -/
@[simp] theorem Memory.lookup_write_same (m : Memory) (a : Nat) (b : Byte) : (m.write a b).lookup a = some b := by
  induction m with
  | nil => simp [Memory.write, Memory.lookup]
  | cons e m ih =>
    obtain ⟨k, v⟩ := e
    by_cases h1 : a < k
    · simp [Memory.write, Memory.lookup, h1]
    · by_cases h2 : a = k
      · simp [Memory.write, Memory.lookup, h2]
      · have h3 : ¬k = a := fun h => h2 h.symm
        simp [Memory.write, Memory.lookup, h1, h2, h3, ih]

/-- A write leaves every other address alone. -/
@[simp] theorem Memory.lookup_write_ne (m : Memory) (a b : Nat) (v : Byte) (h : b ≠ a) :
    (m.write a v).lookup b = m.lookup b := by
  induction m with
  | nil => simp [Memory.write, Memory.lookup, Ne.symm h]
  | cons e m ih =>
    obtain ⟨k, w⟩ := e
    by_cases h1 : a < k
    · simp [Memory.write, Memory.lookup, h1, Ne.symm h]
    · by_cases h2 : a = k
      · subst h2; simp [Memory.write, Memory.lookup, Ne.symm h]
      · simp only [Memory.write, h1, h2, if_false, Memory.lookup, ih]

/-- A write inside the bounds keeps the canonical form. -/
theorem Memory.wfFrom_write (m : Memory) (low size a : Nat) (b : Byte) (hl : low ≤ a) (hs : a < size)
    (hm : Memory.wfFrom low size m = true) : Memory.wfFrom low size (m.write a b) = true := by
  induction m generalizing low with
  | nil => simp [Memory.write, Memory.wfFrom, hl, hs]
  | cons e m ih =>
    obtain ⟨k, v⟩ := e
    simp only [Memory.wfFrom, Bool.and_eq_true, decide_eq_true_eq] at hm
    obtain ⟨⟨h1, h2⟩, h3⟩ := hm
    by_cases c1 : a < k
    · simp only [Memory.write, c1, if_true, Memory.wfFrom, Bool.and_eq_true, decide_eq_true_eq]
      exact ⟨⟨hl, hs⟩, ⟨c1, h2⟩, h3⟩
    · by_cases c2 : a = k
      · subst c2
        simp only [Memory.write, Nat.lt_irrefl, if_true, if_false, Memory.wfFrom, Bool.and_eq_true, decide_eq_true_eq]
        exact ⟨⟨hl, hs⟩, h3⟩
      · simp only [Memory.write, c1, c2, if_false, Memory.wfFrom, Bool.and_eq_true, decide_eq_true_eq]
        exact ⟨⟨h1, h2⟩, ih (k + 1) (by omega) h3⟩

/-- The canonical form is kept by every write inside the memory. -/
theorem Memory.wf_write (m : Memory) (size a : Nat) (b : Byte) (hs : a < size) (hm : m.wf size = true) :
    (m.write a b).wf size = true :=
  Memory.wfFrom_write m 0 size a b (Nat.zero_le a) hs hm

/-- The empty memory is in canonical form. -/
@[simp] theorem Memory.wf_nil (size : Nat) : Memory.wf size [] = true := rfl

/-- What a canonical memory lists lies inside it. -/
theorem Memory.lookup_some_lt (m : Memory) (low size a : Nat) (v : Byte) (hm : Memory.wfFrom low size m = true)
    (h : m.lookup a = some v) : low ≤ a ∧ a < size := by
  induction m generalizing low with
  | nil => simp [Memory.lookup] at h
  | cons e m ih =>
    obtain ⟨k, w⟩ := e
    simp only [Memory.wfFrom, Bool.and_eq_true, decide_eq_true_eq] at hm
    obtain ⟨⟨h1, h2⟩, h3⟩ := hm
    by_cases c : k = a
    · omega
    · simp only [Memory.lookup, c, if_false] at h
      have := ih (k + 1) h3 h
      omega

/-! Data RAM. -/

@[simp] theorem State.ramWrite_ramRead_same (s : State) (a : Nat) (v : Byte) : (s.ramWrite a v).ramRead a = some v := by
  simp [State.ramRead]

@[simp] theorem State.ramWrite_ramRead_ne (s : State) (a b : Nat) (v : Byte) (h : b ≠ a) :
    (s.ramWrite a v).ramRead b = s.ramRead b := by
  simp [State.ramRead, h]

/-- A data address the machine accesses lies in the RAM, whatever the policy for the others. -/
theorem dataAddress_lt (ea a : Nat) (h : dataAddress ea = some a) : a < Config.dmemBytes := by
  unfold dataAddress at h
  split at h
  · simp_all
  · split at h
    · simp at h
    · simp only [Option.some.injEq] at h
      subst h
      exact Nat.mod_lt _ (by decide)

/-- Inside the RAM the data address is the effective address (R51). -/
@[simp] theorem dataAddress_of_lt (ea : Nat) (h : ea < 64) : dataAddress ea = some ea := by
  simp [dataAddress, Config.dmemBytes, h]

/-- At 64 and above there is none: DMEM_OOB is refuse (R51, D12). -/
@[simp] theorem dataAddress_of_ge (ea : Nat) (h : 64 ≤ ea) : dataAddress ea = none := by
  simp [dataAddress, Config.dmemBytes, Params.dmemOob, Nat.not_lt.mpr h]

end Sys2Proof.Machine
end

