-- ==== Sys2Proof/Laws/Ops.lean ====
section
/-! SUPPORT. What the shared operations do: the two write-back shapes, the branch, interrupt entry and return, the boundary rule,
the program word. -/

namespace Sys2Proof.Machine

/-! PC. -/

/-- Advancing is + 1 modulo 2^14 (R24). -/
theorem advance_pc_toNat (s : State) : s.advance.pc.toNat = (s.pc.toNat + 1) % 16384 := by
  simp [BitVec.toNat_add]

/-- A 14-bit PC as a 16-bit word address is the same number. -/
theorem pc_setWidth_toNat (pc : CodeAddr) : (pc.setWidth 16 : Word).toNat = pc.toNat := by
  have := pc.isLt
  simp only [BitVec.toNat_setWidth]
  omega

/-- A word that selects no format is refused by name (UNDEFINED_ENCODING). -/
@[simp] theorem undefinedEncodingOutcome_eq (w : Word) (s : State) :
    undefinedEncodingOutcome w s = .refused (.undefinedEncoding w) := rfl

/-! Interrupt entry and return (R235, R238). -/

@[simp] theorem interruptEntry_bak (src : IrqSource) (s : State) :
    (interruptEntry src s).bak = { pc := s.pc, ioaddr := s.ioaddr, flags := s.flags } := rfl
@[simp] theorem interruptEntry_pc (src : IrqSource) (s : State) : (interruptEntry src s).pc = src.vector := rfl
@[simp] theorem interruptEntry_flags (src : IrqSource) (s : State) :
    (interruptEntry src s).flags = { s.flags with ie := false, tie := false } := rfl
@[simp] theorem interruptEntry_waiting (src : IrqSource) (s : State) : (interruptEntry src s).waiting = false := rfl
@[simp] theorem interruptEntry_inHandler (src : IrqSource) (s : State) : (interruptEntry src s).inHandler = true := rfl
@[simp] theorem interruptEntry_regs (src : IrqSource) (s : State) : (interruptEntry src s).regs = s.regs := rfl
@[simp] theorem interruptEntry_ioaddr (src : IrqSource) (s : State) : (interruptEntry src s).ioaddr = s.ioaddr := rfl
@[simp] theorem interruptEntry_ram (src : IrqSource) (s : State) : (interruptEntry src s).ram = s.ram := rfl
@[simp] theorem interruptEntry_flash (src : IrqSource) (s : State) : (interruptEntry src s).flash = s.flash := rfl
@[simp] theorem interruptEntry_io (src : IrqSource) (s : State) : (interruptEntry src s).io = s.io := rfl
@[simp] theorem interruptEntry_pins (src : IrqSource) (s : State) : (interruptEntry src s).pins = s.pins := rfl
@[simp] theorem interruptEntry_agenda (src : IrqSource) (s : State) : (interruptEntry src s).agenda = s.agenda := rfl
@[simp] theorem interruptEntry_timer_pend (s : State) :
    (interruptEntry .timer s).pendT = false ∧ (interruptEntry .timer s).pendE = s.pendE := ⟨rfl, rfl⟩
@[simp] theorem interruptEntry_external_pend (s : State) :
    (interruptEntry .external s).pendE = false ∧ (interruptEntry .external s).pendT = s.pendT := ⟨rfl, rfl⟩

@[simp] theorem returnFromInterrupt_pc (s : State) : (returnFromInterrupt s).pc = s.bak.pc := rfl
@[simp] theorem returnFromInterrupt_ioaddr (s : State) : (returnFromInterrupt s).ioaddr = s.bak.ioaddr := rfl
@[simp] theorem returnFromInterrupt_flags (s : State) : (returnFromInterrupt s).flags = s.bak.flags := rfl
@[simp] theorem returnFromInterrupt_inHandler (s : State) : (returnFromInterrupt s).inHandler = false := rfl

/-- Everything a return keeps. -/
theorem returnFromInterrupt_eq (s : State) :
    returnFromInterrupt s = { s with pc := s.bak.pc, ioaddr := s.bak.ioaddr, flags := s.bak.flags, inHandler := false } := rfl

/-! The boundary rule (R233, R244, R260). -/

/-- The CPU fetches exactly when it is running, no request is ready and it is not halted. -/
theorem nextAction_fetch_iff (s : State) :
    nextAction s = .fetch ↔
      s.pins.rstd = true ∧ s.pins.pause = false ∧ (s.pendT && s.flags.tie) = false ∧ (s.pendE && s.flags.ie) = false ∧
        s.waiting = false := by
  unfold nextAction
  repeat' split
  all_goals simp_all

/-- The timer interrupt is taken exactly when its request is ready (R233). -/
theorem nextAction_timer_iff (s : State) :
    nextAction s = .enter .timer ↔ s.pins.rstd = true ∧ s.pins.pause = false ∧ (s.pendT && s.flags.tie) = true := by
  unfold nextAction
  repeat' split
  all_goals simp_all

/-- The external interrupt is taken exactly when its request is ready and the timer's is not (R233, R234). -/
theorem nextAction_external_iff (s : State) :
    nextAction s = .enter .external ↔
      s.pins.rstd = true ∧ s.pins.pause = false ∧ (s.pendT && s.flags.tie) = false ∧ (s.pendE && s.flags.ie) = true := by
  unfold nextAction
  repeat' split
  all_goals simp_all

/-- A paused CPU, or one in reset, is idle. -/
theorem nextAction_idle_of_stopped (s : State) (h : s.pins.pause = true ∨ s.pins.rstd = false) : nextAction s = .idle := by
  unfold nextAction
  rcases h with h | h <;> simp [h]

/-- A halted CPU with no request ready is idle (R33, R233). -/
theorem nextAction_idle_of_waiting (s : State) (hw : s.waiting = true) (ht : (s.pendT && s.flags.tie) = false)
    (he : (s.pendE && s.flags.ie) = false) : nextAction s = .idle := by
  unfold nextAction
  simp only [ht, he, hw]
  repeat' split
  all_goals simp_all

/-! Program words. -/

@[simp] theorem wordOfBytes_bytes (w : Word) : wordOfBytes (evenByte w) (oddByte w) = w := by
  change w.extractLsb' 8 8 ++ w.extractLsb' 0 8 = w
  apply BitVec.eq_of_getLsbD_eq
  intro i hi
  refine (BitVec.getLsbD_append (x := w.extractLsb' 8 8) (y := w.extractLsb' 0 8) (i := i)).trans ?_
  by_cases h : i < 8
  · simp [h]
  · have h1 : i - 8 < 8 := by omega
    have h2 : 8 + (i - 8) = i := by omega
    simp [h, h1, h2]

/-- The bytes of a word, low byte at the even address (ROM_BYTE_ORDER of D15). -/
theorem wordOfBytes_eq (even odd : Byte) : wordOfBytes even odd = odd ++ even := rfl

/-- LPM's address is the register pair, all 16 bits of it (LPM_ADDR_BITS of D14). -/
@[simp] theorem lpmAddress (v : Word) : BitVec.ofNat 16 (v.toNat % 2 ^ Params.lpmAddrBits) = v := by
  apply BitVec.eq_of_toNat_eq
  have := v.isLt
  simp only [Params.lpmAddrBits, BitVec.toNat_ofNat]
  omega

/-- A programmed word reads back. -/
@[simp] theorem programWord_romRead (s : State) (a w : Word) : (s.programWord a w).romRead a = w := by
  simp [State.romRead, State.programWord, State.flashRead]

/-- The fetch is the ROM word at PC, from the two flash bytes at 2 * PC (R53, R54). -/
theorem fetchWord_eq (s : State) :
    s.fetchWord = wordOfBytes (s.flashRead (2 * s.pc.toNat)) (s.flashRead (2 * s.pc.toNat + 1)) := by
  simp only [State.fetchWord, State.romRead, pc_setWidth_toNat]

end Sys2Proof.Machine
end

