-- ==== Sys2Proof/Laws/Io.lean ====
section
/-! SUPPORT. What IO accesses can do. -/

namespace Sys2Proof.Machine

/-! Handing a byte to a serial port changes its registers and the record of what it was handed, and nothing else. -/

@[simp] theorem State.handUart_regs (s : State) (v : Byte) : (s.handUart v).regs = s.regs := rfl
@[simp] theorem State.handUart_pc (s : State) (v : Byte) : (s.handUart v).pc = s.pc := rfl
@[simp] theorem State.handUart_ioaddr (s : State) (v : Byte) : (s.handUart v).ioaddr = s.ioaddr := rfl
@[simp] theorem State.handUart_flags (s : State) (v : Byte) : (s.handUart v).flags = s.flags := rfl
@[simp] theorem State.handUart_bak (s : State) (v : Byte) : (s.handUart v).bak = s.bak := rfl
@[simp] theorem State.handUart_pendT (s : State) (v : Byte) : (s.handUart v).pendT = s.pendT := rfl
@[simp] theorem State.handUart_pendE (s : State) (v : Byte) : (s.handUart v).pendE = s.pendE := rfl
@[simp] theorem State.handUart_waiting (s : State) (v : Byte) : (s.handUart v).waiting = s.waiting := rfl
@[simp] theorem State.handUart_inHandler (s : State) (v : Byte) : (s.handUart v).inHandler = s.inHandler := rfl
@[simp] theorem State.handUart_ram (s : State) (v : Byte) : (s.handUart v).ram = s.ram := rfl
@[simp] theorem State.handUart_flash (s : State) (v : Byte) : (s.handUart v).flash = s.flash := rfl
@[simp] theorem State.handUart_pins (s : State) (v : Byte) : (s.handUart v).pins = s.pins := rfl
@[simp] theorem State.handUart_uartOut (s : State) (v : Byte) : (s.handUart v).uartOut = s.uartOut := rfl
@[simp] theorem State.handUart_spiOut (s : State) (v : Byte) : (s.handUart v).spiOut = s.spiOut := rfl
@[simp] theorem State.handUart_flashStartup (s : State) (v : Byte) : (s.handUart v).flashStartup = s.flashStartup := rfl
@[simp] theorem State.handUart_agenda (s : State) (v : Byte) : (s.handUart v).agenda = s.agenda := rfl
@[simp] theorem State.handUart_draws (s : State) (v : Byte) : (s.handUart v).draws = s.draws := rfl
@[simp] theorem State.handUart_io (s : State) (v : Byte) : (s.handUart v).io = { s.io with ubusy := true, utx := v } := rfl
@[simp] theorem State.handUart_uartHanded (s : State) (v : Byte) : (s.handUart v).uartHanded = s.uartHanded ++ [v] := rfl
@[simp] theorem State.handUart_spiHanded (s : State) (v : Byte) : (s.handUart v).spiHanded = s.spiHanded := rfl
@[simp] theorem State.handUart_x (s : State) (v : Byte) (i : RegIdx) : (s.handUart v).x i = s.x i := rfl

@[simp] theorem State.handSpi_regs (s : State) (v : Byte) : (s.handSpi v).regs = s.regs := rfl
@[simp] theorem State.handSpi_pc (s : State) (v : Byte) : (s.handSpi v).pc = s.pc := rfl
@[simp] theorem State.handSpi_ioaddr (s : State) (v : Byte) : (s.handSpi v).ioaddr = s.ioaddr := rfl
@[simp] theorem State.handSpi_flags (s : State) (v : Byte) : (s.handSpi v).flags = s.flags := rfl
@[simp] theorem State.handSpi_bak (s : State) (v : Byte) : (s.handSpi v).bak = s.bak := rfl
@[simp] theorem State.handSpi_pendT (s : State) (v : Byte) : (s.handSpi v).pendT = s.pendT := rfl
@[simp] theorem State.handSpi_pendE (s : State) (v : Byte) : (s.handSpi v).pendE = s.pendE := rfl
@[simp] theorem State.handSpi_waiting (s : State) (v : Byte) : (s.handSpi v).waiting = s.waiting := rfl
@[simp] theorem State.handSpi_inHandler (s : State) (v : Byte) : (s.handSpi v).inHandler = s.inHandler := rfl
@[simp] theorem State.handSpi_ram (s : State) (v : Byte) : (s.handSpi v).ram = s.ram := rfl
@[simp] theorem State.handSpi_flash (s : State) (v : Byte) : (s.handSpi v).flash = s.flash := rfl
@[simp] theorem State.handSpi_pins (s : State) (v : Byte) : (s.handSpi v).pins = s.pins := rfl
@[simp] theorem State.handSpi_uartOut (s : State) (v : Byte) : (s.handSpi v).uartOut = s.uartOut := rfl
@[simp] theorem State.handSpi_spiOut (s : State) (v : Byte) : (s.handSpi v).spiOut = s.spiOut := rfl
@[simp] theorem State.handSpi_flashStartup (s : State) (v : Byte) : (s.handSpi v).flashStartup = s.flashStartup := rfl
@[simp] theorem State.handSpi_agenda (s : State) (v : Byte) : (s.handSpi v).agenda = s.agenda := rfl
@[simp] theorem State.handSpi_draws (s : State) (v : Byte) : (s.handSpi v).draws = s.draws := rfl
@[simp] theorem State.handSpi_io (s : State) (v : Byte) : (s.handSpi v).io = { s.io with sbusy := true, stx := v } := rfl
@[simp] theorem State.handSpi_spiHanded (s : State) (v : Byte) : (s.handSpi v).spiHanded = s.spiHanded ++ [v] := rfl
@[simp] theorem State.handSpi_uartHanded (s : State) (v : Byte) : (s.handSpi v).uartHanded = s.uartHanded := rfl
@[simp] theorem State.handSpi_x (s : State) (v : Byte) (i : RegIdx) : (s.handSpi v).x i = s.x i := rfl

/-- An IO write changes device registers, the draw count and what the serial ports were handed, and nothing else. -/
theorem ioWriteAt_frame (r : IoAddr) (v : Byte) (s t : State) (h : ioWriteAt r v s = .ok t) :
    t = { s with io := t.io, draws := t.draws, uartHanded := t.uartHanded, spiHanded := t.spiHanded } := by
  cases r <;> simp only [ioWriteAt] at h
  all_goals first
    | (cases h; rfl)
    | (split at h <;> cases h; rfl)

/-- An IO read changes device registers and the draw count, and nothing else. -/
theorem ioReadAt_frame (r : IoAddr) (v : Byte) (s t : State) (h : ioReadAt r s = .ok (v, t)) :
    t = { s with io := t.io, draws := t.draws } := by
  cases r <;> simp only [ioReadAt] at h
  all_goals first
    | (cases h; done)
    | (cases h; rfl)
    | (split at h <;> cases h <;> rfl)

/-- A byte the UART transmitter owns is not replaced: while it is busy no write reaches it (R206). -/
theorem ioWriteAt_keeps_uart (r : IoAddr) (v : Byte) (s t : State) (h : ioWriteAt r v s = .ok t) (hb : s.io.ubusy = true) :
    t.io.ubusy = true ∧ t.io.utx = s.io.utx := by
  cases r <;> simp only [ioWriteAt] at h
  all_goals first
    | (cases h; exact ⟨hb, rfl⟩)
    | (split at h <;> cases h <;> exact ⟨hb, rfl⟩)

/-- A byte the SPI port owns is not replaced: while it is busy no write reaches it (R210). -/
theorem ioWriteAt_keeps_spi (r : IoAddr) (v : Byte) (s t : State) (h : ioWriteAt r v s = .ok t) (hb : s.io.sbusy = true) :
    t.io.sbusy = true ∧ t.io.stx = s.io.stx := by
  cases r <;> simp only [ioWriteAt] at h
  all_goals first
    | (cases h; exact ⟨hb, rfl⟩)
    | (split at h <;> cases h <;> exact ⟨hb, rfl⟩)

/-- A read leaves the serial ports' transfers alone. -/
theorem ioReadAt_keeps_ports (r : IoAddr) (v : Byte) (s t : State) (h : ioReadAt r s = .ok (v, t)) :
    t.io.ubusy = s.io.ubusy ∧ t.io.utx = s.io.utx ∧ t.io.sbusy = s.io.sbusy ∧ t.io.stx = s.io.stx := by
  cases r <;> simp only [ioReadAt] at h
  all_goals first
    | (cases h; done)
    | (cases h; exact ⟨rfl, rfl, rfl, rfl⟩)
    | (split at h <;> cases h <;> exact ⟨rfl, rfl, rfl, rfl⟩)

/-- `IOWrite`: a refusal, or the write of an assigned register. -/
theorem ioWrite_frame (ioa v : Byte) (s t : State) (h : ioWrite ioa v s = .ok t) :
    t = { s with io := t.io, draws := t.draws, uartHanded := t.uartHanded, spiHanded := t.spiHanded } := by
  unfold ioWrite at h
  split at h
  · exact ioWriteAt_frame _ v s t h
  · cases h

/-- `IORead`: a refusal, or the read of an assigned register. -/
theorem ioRead_frame (ioa v : Byte) (s t : State) (h : ioRead ioa s = .ok (v, t)) :
    t = { s with io := t.io, draws := t.draws } := by
  unfold ioRead at h
  split at h
  · exact ioReadAt_frame _ v s t h
  · cases h

@[simp] theorem ioUnassignedRead_eq (ioa : Byte) (s : State) : ioUnassignedRead ioa s = .error .unassignedIoAddress := rfl

@[simp] theorem ioUnassignedWrite_eq (ioa v : Byte) (s : State) : ioUnassignedWrite ioa v s = .error .unassignedIoAddress := rfl

/-- Addresses 16h to FFh are not assigned (R220). -/
theorem ioAddr_unassigned (a : Byte) (h : 0x16 ≤ a.toNat) : ioAddr a = none := by
  change ioAddrLowFirst a = none
  unfold ioAddrLowFirst
  split <;> first | omega | rfl

/-! IN and OUT at an assigned address (R167, R168). -/

/-- OUT writes the register IOADDR selects and goes on. -/
theorem execOut_of_ok (s t : State) (a : RegIdx) (r : IoAddr) (hr : ioAddr s.ioaddr = some r)
    (hw : ioWriteAt r (s.x a) s = .ok t) : execOut a s = .next t.advance := by
  simp [execOut, ioWrite, hr, hw]

/-- OUT stops where the write is refused. -/
theorem execOut_of_error (s : State) (a : RegIdx) (r : IoAddr) (e : Refusal) (hr : ioAddr s.ioaddr = some r)
    (hw : ioWriteAt r (s.x a) s = .error e) : execOut a s = .refused e := by
  simp [execOut, ioWrite, hr, hw]

/-- IN reads the register IOADDR selects, writes the destination and goes on. -/
theorem execIn_of_ok (s t : State) (a : RegIdx) (r : IoAddr) (v : Byte) (hr : ioAddr s.ioaddr = some r)
    (hw : ioReadAt r s = .ok (v, t)) : execIn a s = .next (t.setX a v).advance := by
  simp [execIn, ioRead, hr, hw]

/-- IN stops where the read is refused. -/
theorem execIn_of_error (s : State) (a : RegIdx) (r : IoAddr) (e : Refusal) (hr : ioAddr s.ioaddr = some r)
    (hw : ioReadAt r s = .error e) : execIn a s = .refused e := by
  simp [execIn, ioRead, hr, hw]

/-- What OUT can do when it goes on: device registers, the draw count, what the serial ports were handed, and PC. -/
theorem execOut_next (s t : State) (a : RegIdx) (h : execOut a s = .next t) :
    t = { s with io := t.io, draws := t.draws, uartHanded := t.uartHanded, spiHanded := t.spiHanded, pc := s.pc + 1 } := by
  unfold execOut at h
  split at h
  · rename_i u hu
    cases h
    rw [ioWrite_frame _ _ s u hu]
    rfl
  · cases h

/-- What IN can do when it goes on: the destination register, device registers, the draw count and PC. -/
theorem execIn_next (s t : State) (a : RegIdx) (h : execIn a s = .next t) :
    ∃ u v, ioRead s.ioaddr s = .ok (v, u) ∧ u = { s with io := u.io, draws := u.draws } ∧ t = (u.setX a v).advance := by
  unfold execIn at h
  split at h
  · rename_i v u hu
    cases h
    exact ⟨u, v, hu, ioRead_frame _ v s u hu, rfl⟩
  · cases h

/-! The halves of a 16-bit IO register. -/

@[simp] theorem lowByte_withLow (w : Word) (v : Byte) : lowByte (withLow w v) = v := by simp [withLow]
@[simp] theorem highByte_withLow (w : Word) (v : Byte) : highByte (withLow w v) = highByte w := by simp [withLow]
@[simp] theorem lowByte_withHigh (w : Word) (v : Byte) : lowByte (withHigh w v) = lowByte w := by simp [withHigh]
@[simp] theorem highByte_withHigh (w : Word) (v : Byte) : highByte (withHigh w v) = v := by simp [withHigh]

/-- STAT as a number: UBUSY, SBUSY, UHB in bits 0 to 2 (R211). -/
theorem IoRegs.stat_toNat (r : IoRegs) : r.stat.toNat = r.ubusy.toNat + 2 * r.sbusy.toNat + 4 * r.uhb.toNat := by
  unfold IoRegs.stat
  cases r.ubusy <;> cases r.sbusy <;> cases r.uhb <;> rfl

/-- A PINx bit of an input pin is the outside level, whatever the free value (R204). -/
theorem pinValue_input (ddr pins free : Byte) (k : Nat) (hk : k < 8) (h : ddr.getLsbD k = false) :
    (pinValue ddr pins free).getLsbD k = pins.getLsbD k := by
  rw [BitVec.getLsbD_eq_getElem hk] at h ⊢
  simp [pinValue, h, hk]

/-- A pin is driven to PORTx where DDRx is 1 and has the outside level elsewhere (R203). -/
theorem portLevels_bit (ddr port pins : Byte) (k : Nat) (hk : k < 8) :
    (portLevels ddr port pins).getLsbD k = if ddr.getLsbD k then port.getLsbD k else pins.getLsbD k := by
  rw [BitVec.getLsbD_eq_getElem hk, BitVec.getLsbD_eq_getElem hk, BitVec.getLsbD_eq_getElem hk, BitVec.getLsbD_eq_getElem hk]
  cases h : ddr[k] <;> simp [portLevels, h]

end Sys2Proof.Machine
end

