-- ==== Sys2Proof/Laws/Devices.lean ====
section
/-! SUPPORT. What the agents other than the CPU can do. -/

namespace Sys2Proof.Machine

@[simp] theorem latches_eq (e : Bool) : latches e = e := by simp [latches, Params.irqLatchWhenDisabled]

/-- A tick changes TIMER and, at most, sets PEND_T. -/
theorem timerTick_frame (late : Bool) (s : State) :
    timerTick late s = { s with io := { s.io with timer := (timerTick late s).io.timer }, pendT := (timerTick late s).pendT } := by
  unfold timerTick
  split
  · rfl
  · split
    · cases late <;> rfl
    · rfl

/-- A prescaler clock changes TIMER, the phase and, at most, sets PEND_T. -/
theorem timerClock_frame (late : Bool) (s : State) :
    timerClock late s =
      { s with
        io := { s.io with timer := (timerClock late s).io.timer, prescale := (timerClock late s).io.prescale }
        pendT := (timerClock late s).pendT } := by
  unfold timerClock
  split
  · rfl
  · rw [timerTick_frame]; rfl

/-- A latched timer request stays latched through a clock (R232). -/
theorem timerClock_pendT (late : Bool) (s : State) (h : s.pendT = true) : (timerClock late s).pendT = true := by
  unfold timerClock timerTick
  repeat' split
  all_goals simp [timerExpiry, h]

/-- A tick does not look at the agenda. -/
theorem timerTick_agenda (late : Bool) (s : State) (l : List Turn) :
    timerTick late { s with agenda := l } = { timerTick late s with agenda := l } := by
  by_cases h2 : s.io.timer = s.io.ttop
  · simp [timerTick, timerExpiry, h2, State.setIo]
  · by_cases h3 : s.io.ttop < s.io.timer
    · cases late <;> simp [timerTick, timerExpiry, h2, h3, State.setIo]
    · simp [timerTick, h2, h3, State.setIo]

/-- A clock does not look at the agenda. -/
theorem timerClock_agenda (late : Bool) (s : State) (l : List Turn) :
    timerClock late { s with agenda := l } = { timerClock late s with agenda := l } := by
  by_cases h1 : s.io.prescale < s.io.tdiv
  · simp [timerClock, h1, State.setIo]
  · simp only [timerClock, h1, if_false, State.setIo]
    exact timerTick_agenda late (s.setIo { s.io with prescale := 0 }) l

/-- Every event that is not a reset leaves the CPU's registers, the memories and the ghost bit alone. -/
theorem applyEvent_frame (e : Event) (s : State) (h : ∀ u, e ≠ .assertRSTD u) :
    applyEvent e s =
      { s with
        io := (applyEvent e s).io
        pins := (applyEvent e s).pins
        pendT := (applyEvent e s).pendT
        pendE := (applyEvent e s).pendE
        uartOut := (applyEvent e s).uartOut
        spiOut := (applyEvent e s).spiOut } := by
  cases e with
  | timerClock late =>
    simp only [applyEvent, whenRunning]
    split
    · rw [timerClock_frame]
    · rfl
  | uartSent => simp only [applyEvent, whenRunning, uartSent]; repeat' split
                all_goals rfl
  | uartReceived b => simp only [applyEvent, whenRunning, uartReceived]; split <;> rfl
  | spiDone b => simp only [applyEvent, whenRunning, spiDone]; repeat' split
                 all_goals rfl
  | driveINT level => simp only [applyEvent, driveInt]; split <;> rfl
  | assertRSTD u => exact absurd rfl (h u)
  | drivePA v => rfl
  | drivePB v => rfl
  | driveRXD level => rfl
  | driveSDI level => rfl
  | drivePAUSE level => rfl
  | releaseRSTD => rfl

/-! The turns ahead: what a used-up agenda is filled with while a port is busy (R206). -/

/-- No event hands a byte to a serial port or takes one back, a reset included (R268). -/
theorem applyEvent_handed (e : Event) (s : State) :
    (applyEvent e s).uartHanded = s.uartHanded ∧ (applyEvent e s).spiHanded = s.spiHanded := by
  by_cases h : ∃ u, e = .assertRSTD u
  · obtain ⟨u, rfl⟩ := h
    exact ⟨rfl, rfl⟩
  · rw [applyEvent_frame e s (fun u hu => h ⟨u, hu⟩)]
    exact ⟨rfl, rfl⟩

/-! Taking a turn changes the agenda and the draw count, and nothing else. -/

@[simp] theorem State.takeTurn_regs (s : State) : s.takeTurn.regs = s.regs := rfl
@[simp] theorem State.takeTurn_pc (s : State) : s.takeTurn.pc = s.pc := rfl
@[simp] theorem State.takeTurn_ioaddr (s : State) : s.takeTurn.ioaddr = s.ioaddr := rfl
@[simp] theorem State.takeTurn_flags (s : State) : s.takeTurn.flags = s.flags := rfl
@[simp] theorem State.takeTurn_bak (s : State) : s.takeTurn.bak = s.bak := rfl
@[simp] theorem State.takeTurn_pendT (s : State) : s.takeTurn.pendT = s.pendT := rfl
@[simp] theorem State.takeTurn_pendE (s : State) : s.takeTurn.pendE = s.pendE := rfl
@[simp] theorem State.takeTurn_waiting (s : State) : s.takeTurn.waiting = s.waiting := rfl
@[simp] theorem State.takeTurn_inHandler (s : State) : s.takeTurn.inHandler = s.inHandler := rfl
@[simp] theorem State.takeTurn_ram (s : State) : s.takeTurn.ram = s.ram := rfl
@[simp] theorem State.takeTurn_flash (s : State) : s.takeTurn.flash = s.flash := rfl
@[simp] theorem State.takeTurn_io (s : State) : s.takeTurn.io = s.io := rfl
@[simp] theorem State.takeTurn_pins (s : State) : s.takeTurn.pins = s.pins := rfl
@[simp] theorem State.takeTurn_uartOut (s : State) : s.takeTurn.uartOut = s.uartOut := rfl
@[simp] theorem State.takeTurn_spiOut (s : State) : s.takeTurn.spiOut = s.spiOut := rfl
@[simp] theorem State.takeTurn_uartHanded (s : State) : s.takeTurn.uartHanded = s.uartHanded := rfl
@[simp] theorem State.takeTurn_spiHanded (s : State) : s.takeTurn.spiHanded = s.spiHanded := rfl
@[simp] theorem State.takeTurn_flashStartup (s : State) : s.takeTurn.flashStartup = s.flashStartup := rfl
@[simp] theorem State.takeTurn_agenda (s : State) : s.takeTurn.agenda = s.turnsAhead.tail := rfl
@[simp] theorem State.takeTurn_x (s : State) (i : RegIdx) : s.takeTurn.x i = s.x i := rfl
@[simp] theorem State.takeTurn_ramRead (s : State) (a : Nat) : s.takeTurn.ramRead a = s.ramRead a := rfl
@[simp] theorem State.takeTurn_flashRead (s : State) (a : Nat) : s.takeTurn.flashRead a = s.flashRead a := rfl

/-! When the ports' completions are due. -/

/-- An agenda that is not used up stands. -/
theorem duesNeeded_of_agenda (s : State) (turn : Turn) (rest : List Turn) (h : s.agenda = turn :: rest) : s.duesNeeded = false := by
  simp [State.duesNeeded, h]

/-- With no port busy nothing is due. -/
theorem duesNeeded_of_idle (s : State) (h : s.portBusy = false) : s.duesNeeded = false := by simp [State.duesNeeded, h]

/-- Where nothing is due the turns ahead are the agenda. -/
theorem turnsAhead_of_not_needed (s : State) (h : s.duesNeeded = false) : s.turnsAhead = s.agenda := by simp [State.turnsAhead, h]

/-- Where nothing is due taking a turn only shortens the agenda. -/
theorem takeTurn_of_not_needed (s : State) (h : s.duesNeeded = false) : s.takeTurn = { s with agenda := s.agenda.tail } := by
  simp [State.takeTurn, State.turnsAhead, h]

/-- A used-up agenda with a port busy, out of reset. -/
theorem turnsAhead_of_busy (s : State) (ha : s.agenda = []) (hb : s.portBusy = true) (hr : s.pins.rstd = true) :
    s.turnsAhead = uartDue s ++ spiDue s := by simp [State.turnsAhead, State.duesNeeded, ha, hb, hr]

/-- Where no turn is ahead the agenda is used up and nothing is due. -/
theorem takeTurn_of_nil (s : State) (h : s.turnsAhead = []) : s.takeTurn = s := by
  cases hn : s.duesNeeded with
  | false =>
    rw [turnsAhead_of_not_needed s hn] at h
    rw [takeTurn_of_not_needed s hn, h, List.tail_nil, ← h]
  | true =>
    simp only [State.turnsAhead, hn, if_true] at h
    simp only [State.duesNeeded, State.portBusy, Bool.and_eq_true, Bool.or_eq_true] at hn
    rcases hn.1.2 with hb | hb <;> simp [uartDue, spiDue, hb] at h

/-- A busy UART transmitter's completion is due. -/
theorem uartSent_mem_uartDue (s : State) (h : s.io.ubusy = true) : Turn.event .uartSent ∈ uartDue s := by
  simp [uartDue, h]

/-- A busy SPI port's completion is due. -/
theorem spiDone_mem_spiDue (s : State) (h : s.io.sbusy = true) :
    Turn.event (.spiDone (Config.freeByte s.draws)) ∈ spiDue s := by
  simp [spiDue, h]

/-- Nothing but CPU turns and the ports' completions is due. -/
theorem mem_due (s : State) (turn : Turn) (h : turn ∈ uartDue s ++ spiDue s) :
    turn = .cpu ∨ turn = .event .uartSent ∨ ∃ b, turn = .event (.spiDone b) := by
  rw [List.mem_append] at h
  rcases h with h | h
  · unfold uartDue at h
    split at h
    · rcases List.mem_append.mp h with h | h
      · exact .inl (List.eq_of_mem_replicate h)
      · exact .inr (.inl (List.mem_singleton.mp h))
    · cases h
  · unfold spiDue at h
    split at h
    · rcases List.mem_append.mp h with h | h
      · exact .inl (List.eq_of_mem_replicate h)
      · exact .inr (.inr ⟨_, List.mem_singleton.mp h⟩)
    · cases h

/-- A turn ahead stands on the agenda, or is a CPU turn or a port's completion. -/
theorem mem_turnsAhead (s : State) (turn : Turn) (h : turn ∈ s.turnsAhead) :
    turn ∈ s.agenda ∨ turn = .cpu ∨ turn = .event .uartSent ∨ ∃ b, turn = .event (.spiDone b) := by
  unfold State.turnsAhead at h
  split at h
  · exact .inr (mem_due s turn h)
  · exact .inl h

/-- A reset ahead stands on the agenda, and first there if it comes first. -/
theorem turnsAhead_reset (s : State) (u : Unspecified) (rest : List Turn) (h : s.turnsAhead = .event (.assertRSTD u) :: rest) :
    s.agenda = .event (.assertRSTD u) :: rest := by
  cases hn : s.duesNeeded with
  | false => rw [← turnsAhead_of_not_needed s hn, h]
  | true =>
    have hm := mem_due s (.event (.assertRSTD u)) (by
      simp only [State.turnsAhead, hn, if_true] at h
      rw [h]
      exact List.mem_cons_self)
    rcases hm with hm | hm | ⟨b, hm⟩ <;> cases hm

/-- Taking a turn puts no reset on the agenda. -/
theorem reset_mem_takeTurn (s : State) (u : Unspecified) (h : Turn.event (.assertRSTD u) ∈ s.takeTurn.agenda) :
    Turn.event (.assertRSTD u) ∈ s.agenda := by
  rcases mem_turnsAhead s _ (List.mem_of_mem_tail h) with h | h | h | ⟨b, h⟩
  · exact h
  all_goals cases h

end Sys2Proof.Machine
end

