-- ==== Sys2Proof/Laws/Exec.lean ====
section
/-! SUPPORT. What the meanings with a parameter or a choice do at the values the spec decides: one equation each, which a proof cites
instead of unfolding the meaning. -/

namespace Sys2Proof.Machine

/-- JMP loads its address (JUMP_ADDR_BITS 14). -/
theorem execJmp_eq (addr : CodeAddr) (s : State) : execJmp addr s = .next (s.setPc addr) := by
  rw [execJmp, BitVec.setWidth_eq]

/-- A taken branch goes to the branch's own address plus the offset (PC_REF and BRANCH_BIAS 0). -/
theorem branchIf_true (off : BitVec Config.branchImmBits) (s : State) : branchIf true off s = .next (s.setPc (s.pc + branchOffset off)) := by
  simp [branchIf, Params.pcRef, Params.branchBias]

/-- A branch not taken goes on. -/
theorem branchIf_false (off : BitVec Config.branchImmBits) (s : State) : branchIf false off s = .next s.advance := by
  simp [branchIf]

/-- The branch target as a number (R145). -/
theorem branchTarget_toNat (pc : CodeAddr) (off : BitVec 10) :
    ((pc + branchOffset off).toNat : Int) = ((pc.toNat : Int) + off.toInt) % 16384 := by
  have hp := pc.isLt
  have ho := off.isLt
  have hi : off.toInt = if 2 * off.toNat < 2 ^ 10 then (off.toNat : Int) else off.toNat - 2 ^ 10 := BitVec.toInt_eq_toNat_cond ..
  have hm : off.msb = decide (512 ≤ off.toNat) := by simpa using BitVec.msb_eq_decide off
  have he : branchOffset off = (off.signExtend 14 : CodeAddr) := rfl
  rw [he, BitVec.toNat_add, BitVec.toNat_signExtend, hm, BitVec.toNat_setWidth]
  by_cases h : 512 ≤ off.toNat
  · rw [if_neg (by omega)] at hi
    rw [hi, if_pos (by simpa using h)]
    omega
  · rw [if_pos (by omega)] at hi
    rw [hi, if_neg (by simpa using h)]
    omega

/-- GETPC with two registers, or r0 twice: the halves of PC + 2 (PC_REF 0). -/
theorem execGetpc_pair (a b : RegIdx) (s : State) (h : a ≠ b ∨ a = 0) :
    execGetpc a b s =
      .next ((s.setX a (lowByte ((s.pc + 2).setWidth 16))).setX b (highByte ((s.pc + 2).setWidth 16))).advance := by
  have hn : ¬(a = b ∧ a ≠ 0) := by
    rintro ⟨h1, h2⟩
    rcases h with h | h
    · exact h h1
    · exact h2 h
  simp [execGetpc, hn, Params.pcRef]

/-- GETPC with one register other than r0 twice: a free value. -/
theorem execGetpc_same (a : RegIdx) (s : State) (h : a ≠ 0) :
    execGetpc a a s = .next (s.setX a (Config.freeByte s.draws)).drew.advance := by
  simp [execGetpc, h]

/-- MUL, unsigned, low byte to r1 and high byte to r2. -/
theorem execMul_eq (a : RegIdx) (s : State) :
    execMul a s =
      .next ((s.setX 1 (lowByte ((s.x 1).setWidth 16 * (s.x a).setWidth 16))).setX 2
        (highByte ((s.x 1).setWidth 16 * (s.x a).setWidth 16))).advance := rfl

/-- LPM: the two flash bytes of the word at {r3, r2}. -/
theorem execLpm_eq (s : State) :
    execLpm s =
      .next ((s.setX 1 (s.flashRead (2 * ((s.x 3).toNat * 256 + (s.x 2).toNat)))).setX 2
        (s.flashRead (2 * ((s.x 3).toNat * 256 + (s.x 2).toNat) + 1))).advance := by
  have hl : ∀ even odd : Byte, lowByte (wordOfBytes even odd) = even := fun even odd => lowByte_pair odd even
  have hh : ∀ even odd : Byte, highByte (wordOfBytes even odd) = odd := fun even odd => highByte_pair odd even
  simp only [execLpm, lpmAddress]
  simp only [State.romRead, hl, hh, pair_toNat]

/-- WRF where nothing forbids it. -/
theorem execWrf_allowed (a : RegIdx) (s : State)
    (h : s.inHandler = true → (s.x a).getLsbD 2 = false ∧ (s.x a).getLsbD 3 = false) :
    execWrf a s = .next (s.setFlags (Flags.ofByte (s.x a))).advance := by
  cases hi : s.inHandler
  · simp only [execWrf, hi, Bool.false_and]
    rfl
  · simp only [execWrf, hi, Flags.ofByte_ie, Flags.ofByte_tie, (h hi).1, (h hi).2]
    rfl

end Sys2Proof.Machine
end

