-- ==== Sys2Proof/Laws/PerInstr.lean ====
section
/-! SUPPORT. Statements made per instruction: the word of an instruction has the fixed bits its row of spec/opcode_table.json gives. -/

namespace Sys2Proof.Laws.TableRow

open Machine.Params (layout)

/-- The "fixed" fields of the row, each as (high bit, low bit, value). -/
def fixed : Instr → List (Nat × Nat × Nat)
  | .ldi _ _ => [(15, 12, 0)]
  | .ldioa _ => [(15, 8, 0)]
  | .add _ _ => [(15, 8, 16)]
  | .adc _ _ => [(15, 8, 17)]
  | .sub _ _ => [(15, 8, 18)]
  | .sbc _ _ => [(15, 8, 19)]
  | .and _ _ => [(15, 8, 20)]
  | .or _ _ => [(15, 8, 21)]
  | .xor _ _ => [(15, 8, 22)]
  | .not _ _ => [(15, 8, 23)]
  | .addi _ _ => [(15, 8, 24)]
  | .adci _ _ => [(15, 8, 25)]
  | .subi _ _ => [(15, 8, 26)]
  | .sbci _ _ => [(15, 8, 27)]
  | .getpc _ _ => [(15, 8, 28)]
  | .jmpr _ _ => [(15, 8, 29)]
  | .cmp _ _ => [(15, 8, 30)]
  | .jmp _ => [(15, 14, 3)]
  | .bcc _ => [(15, 10, 8)]
  | .bcs _ => [(15, 10, 9)]
  | .bnz _ => [(15, 10, 10)]
  | .bz _ => [(15, 10, 11)]
  | .ld _ _ _ => [(15, 14, 1)]
  | .st _ _ _ => [(15, 14, 2)]
  | .lsr _ => [(3, 0, 0), (15, 8, 31)]
  | .rrc _ => [(3, 0, 1), (15, 8, 31)]
  | .lsl _ => [(3, 0, 2), (15, 8, 31)]
  | .rlc _ => [(3, 0, 3), (15, 8, 31)]
  | .ror _ => [(3, 0, 4), (15, 8, 31)]
  | .rol _ => [(3, 0, 5), (15, 8, 31)]
  | .stioa _ => [(3, 0, 6), (15, 8, 31)]
  | .out _ => [(3, 0, 7), (15, 8, 31)]
  | .inp _ => [(3, 0, 8), (15, 8, 31)]
  | .cmpi _ => [(3, 0, 9), (15, 8, 31)]
  | .wait => [(3, 0, 10), (15, 8, 31)]
  | .reti => [(3, 0, 11), (15, 8, 31)]
  | .mul _ => [(3, 0, 12), (15, 8, 31)]
  | .rdf _ => [(3, 0, 13), (15, 8, 31)]
  | .wrf _ => [(3, 0, 14), (15, 8, 31)]
  | .lpm => [(3, 0, 15), (15, 8, 31)]

/-- Every fixed field of the row stands in the encoded word. -/
def Statement (i : Instr) : Prop := ∀ f ∈ fixed i, ((encode i).extractLsb' f.2.1 (f.1 - f.2.1 + 1)).toNat = f.2.2

/-- A word meets a list of fixed fields. -/
def Meets (w : Word) (fs : List (Nat × Nat × Nat)) : Prop :=
  ∀ f ∈ fs, (w.extractLsb' f.2.1 (f.1 - f.2.1 + 1)).toNat = f.2.2

theorem meets_one (w : Word) (hi lo v : Nat) (h : w.toNat / 2 ^ lo % 2 ^ (hi - lo + 1) = v) : Meets w [(hi, lo, v)] := by
  intro f hf
  obtain rfl := List.mem_singleton.mp hf
  rw [field_toNat, h]

/-- Reg/Reg words. -/
theorem regReg (o a b : BitVec 4) : Meets (encodeRegReg layout o a b) [(15, 8, 16 + o.toNat)] := by
  apply meets_one
  rw [encodeRegReg_toNat]
  omega

/-- EXT words. -/
theorem ext (a e : BitVec 4) : Meets (encodeExt layout a e) [(3, 0, e.toNat), (15, 8, 31)] := by
  intro f hf
  have h : f = (3, 0, e.toNat) ∨ f = (15, 8, 31) := by simpa using hf
  rcases h with rfl | rfl <;> rw [field_toNat, encodeExt_toNat]
  · show (7936 + a.toNat * 16 + e.toNat) / 1 % 16 = e.toNat
    omega
  · show (7936 + a.toNat * 16 + e.toNat) / 256 % 256 = 31
    omega

/-- Conditional Branch words. -/
theorem branch (c : BitVec 2) (off : BitVec Config.branchImmBits) : Meets (encodeBranch layout c off) [(15, 10, 8 + c.toNat)] := by
  apply meets_one
  have := Nat.lt_of_lt_of_eq off.isLt (by decide : 2 ^ Config.branchImmBits = 1024)
  rw [encodeBranch_toNat]
  omega

theorem ldi (d : RegIdx) (imm : Byte) : Statement (.ldi d imm) := by
  apply meets_one
  have h : (encode (.ldi d imm)).toNat = _ := encodeImmediate_toNat (bitsOfReg d) imm
  rw [h]
  simp only [bitsOfReg_toNat]
  omega
theorem ldioa (imm : Byte) : Statement (.ldioa imm) := by
  apply meets_one
  have h : (encode (.ldioa imm)).toNat = _ := encodeImmediate_toNat 0#4 imm
  rw [h]
  simp only [BitVec.toNat_ofNat]
  omega
theorem add (a b : RegIdx) : Statement (.add a b) := regReg 0 _ _
theorem adc (a b : RegIdx) : Statement (.adc a b) := regReg 1 _ _
theorem sub (a b : RegIdx) : Statement (.sub a b) := regReg 2 _ _
theorem sbc (a b : RegIdx) : Statement (.sbc a b) := regReg 3 _ _
theorem and (a b : RegIdx) : Statement (.and a b) := regReg 4 _ _
theorem or (a b : RegIdx) : Statement (.or a b) := regReg 5 _ _
theorem xor (a b : RegIdx) : Statement (.xor a b) := regReg 6 _ _
theorem not (a b : RegIdx) : Statement (.not a b) := regReg 7 _ _
theorem addi (a : RegIdx) (imm : BitVec 4) : Statement (.addi a imm) := regReg 8 _ _
theorem adci (a : RegIdx) (imm : BitVec 4) : Statement (.adci a imm) := regReg 9 _ _
theorem subi (a : RegIdx) (imm : BitVec 4) : Statement (.subi a imm) := regReg 10 _ _
theorem sbci (a : RegIdx) (imm : BitVec 4) : Statement (.sbci a imm) := regReg 11 _ _
theorem getpc (a b : RegIdx) : Statement (.getpc a b) := regReg 12 _ _
theorem jmpr (a b : RegIdx) : Statement (.jmpr a b) := regReg 13 _ _
theorem cmp (a b : RegIdx) : Statement (.cmp a b) := regReg 14 _ _
theorem jmp (addr : BitVec Config.jumpAddrBits) : Statement (.jmp addr) := by
  apply meets_one
  have := Nat.lt_of_lt_of_eq addr.isLt (by decide : 2 ^ Config.jumpAddrBits = 16384)
  have h : (encode (.jmp addr)).toNat = _ := encodeJump_toNat addr
  rw [h]
  omega
theorem bcc (off : BitVec Config.branchImmBits) : Statement (.bcc off) := branch 0 off
theorem bcs (off : BitVec Config.branchImmBits) : Statement (.bcs off) := branch 1 off
theorem bnz (off : BitVec Config.branchImmBits) : Statement (.bnz off) := branch 2 off
theorem bz (off : BitVec Config.branchImmBits) : Statement (.bz off) := branch 3 off
theorem ld (d : RegIdx) (base : BitVec Config.ldstBaseBits) (idx : RegIdx) : Statement (.ld d base idx) := by
  apply meets_one
  have := Nat.lt_of_lt_of_eq base.isLt (by decide : 2 ^ Config.ldstBaseBits = 64)
  have h : (encode (.ld d base idx)).toNat = _ := encodeLoadStore_toNat 1#2 base (bitsOfReg d) (bitsOfReg idx)
  rw [h]
  simp only [BitVec.toNat_ofNat, bitsOfReg_toNat]
  omega
theorem st (src : RegIdx) (base : BitVec Config.ldstBaseBits) (idx : RegIdx) : Statement (.st src base idx) := by
  apply meets_one
  have := Nat.lt_of_lt_of_eq base.isLt (by decide : 2 ^ Config.ldstBaseBits = 64)
  have h : (encode (.st src base idx)).toNat = _ := encodeLoadStore_toNat 2#2 base (bitsOfReg src) (bitsOfReg idx)
  rw [h]
  simp only [BitVec.toNat_ofNat, bitsOfReg_toNat]
  omega
theorem lsr (a : RegIdx) : Statement (.lsr a) := ext _ 0
theorem rrc (a : RegIdx) : Statement (.rrc a) := ext _ 1
theorem lsl (a : RegIdx) : Statement (.lsl a) := ext _ 2
theorem rlc (a : RegIdx) : Statement (.rlc a) := ext _ 3
theorem ror (a : RegIdx) : Statement (.ror a) := ext _ 4
theorem rol (a : RegIdx) : Statement (.rol a) := ext _ 5
theorem stioa (a : RegIdx) : Statement (.stioa a) := ext _ 6
theorem out (a : RegIdx) : Statement (.out a) := ext _ 7
theorem inp (a : RegIdx) : Statement (.inp a) := ext _ 8
theorem cmpi (imm : BitVec 4) : Statement (.cmpi imm) := ext _ 9
theorem wait : Statement .wait := ext _ 10
theorem reti : Statement .reti := ext _ 11
theorem mul (a : RegIdx) : Statement (.mul a) := ext _ 12
theorem rdf (a : RegIdx) : Statement (.rdf a) := ext _ 13
theorem wrf (a : RegIdx) : Statement (.wrf a) := ext _ 14
theorem lpm : Statement .lpm := ext _ 15

end Sys2Proof.Laws.TableRow
end

