-- ==== Sys2Proof/Laws/Step.lean ====
section
/-! SUPPORT. What one step can do, said once: the inversion lemma every whole-machine claim starts from. -/

namespace Sys2Proof.Machine

/-- With nothing on the agenda and no port busy the step is the CPU's. -/
theorem step_of_no_turn (s : State) (h : s.turnsAhead = []) : step s = cpuStep s := by
  simp only [step, h, takeTurn_of_nil s h]

/-- A CPU turn. -/
theorem step_of_cpu_turn (s : State) (rest : List Turn) (h : s.turnsAhead = .cpu :: rest) : step s = cpuStep s.takeTurn := by
  simp only [step, h]

/-- Another agent's turn. -/
theorem step_of_event (s : State) (e : Event) (rest : List Turn) (h : s.turnsAhead = .event e :: rest) :
    step s = .next (applyEvent e s.takeTurn) := by simp only [step, h]

/-- Another agent's turn that stands on the agenda. -/
theorem step_of_agenda_event (s : State) (e : Event) (rest : List Turn) (h : s.agenda = .event e :: rest) :
    step s = .next (applyEvent e { s with agenda := rest }) := by
  have hn := duesNeeded_of_agenda s _ _ h
  rw [step_of_event s e rest (by rw [turnsAhead_of_not_needed s hn, h]), takeTurn_of_not_needed s hn, h, List.tail_cons]

/-- What the CPU can do: nothing, enter an interrupt, or run the instruction it fetched. -/
theorem cpuStep_cases (s t : State) (h : cpuStep s = .next t) :
    (nextAction s = .idle ∧ t = s) ∨
    (∃ src, nextAction s = .enter src ∧ t = interruptEntry src s) ∨
    (nextAction s = .fetch ∧ ∃ i, decode s.fetchWord = .ok i ∧ exec i s = .next t) := by
  unfold cpuStep at h
  split at h
  next ha => exact .inl ⟨ha, by cases h; rfl⟩
  next src ha => exact .inr (.inl ⟨src, ha, by cases h; rfl⟩)
  next ha =>
    refine .inr (.inr ⟨ha, ?_⟩)
    unfold runInstruction at h
    split at h
    next i hi => exact ⟨i, hi, h⟩
    next => cases h

/-- What one step can do. -/
theorem step_cases (s t : State) (h : step s = .next t) :
    (∃ e rest, s.turnsAhead = .event e :: rest ∧ t = applyEvent e s.takeTurn) ∨
    (nextAction s = .idle ∧ t = s.takeTurn) ∨
    (∃ src, nextAction s = .enter src ∧ t = interruptEntry src s.takeTurn) ∨
    (nextAction s = .fetch ∧ ∃ i, decode s.fetchWord = .ok i ∧ exec i s.takeTurn = .next t) := by
  unfold step at h
  split at h
  next => exact .inr (cpuStep_cases s.takeTurn t h)
  next => exact .inr (cpuStep_cases s.takeTurn t h)
  next e rest ha => exact .inl ⟨e, rest, ha, by cases h; rfl⟩

/-- A fetching CPU runs the instruction its word decodes to (R233). -/
theorem cpuStep_of_fetch (s : State) (i : Instr) (ha : nextAction s = .fetch) (hd : decode s.fetchWord = .ok i) :
    cpuStep s = exec i s := by
  simp [cpuStep, ha, runInstruction, hd]

/-- An agenda that is used up, with no port busy, stays so. -/
theorem cpuFirst_of_idle (s : State) (ha : s.agenda = []) (hb : s.portBusy = false) : s.cpuFirst = [] := by
  simp [State.cpuFirst, ha, hb]

/-- With the CPU put first, the step is the CPU's, and what stood on the agenda still stands there. -/
theorem step_placeFetchWord (s : State) (w : Word) :
    step (placeFetchWord s w) = cpuStep { placeFetchWord s w with agenda := s.agenda } := by
  have hg : (placeFetchWord s w).agenda = s.cpuFirst := rfl
  by_cases h : s.agenda = [] ∧ s.portBusy = false
  · have hc := cpuFirst_of_idle s h.1 h.2
    have hn := duesNeeded_of_idle (placeFetchWord s w) h.2
    rw [step_of_no_turn _ (by rw [turnsAhead_of_not_needed _ hn, hg, hc]), h.1, ← hc, ← hg]
  · have hc : s.cpuFirst = .cpu :: s.agenda := by
      unfold State.cpuFirst
      split
      next hx => exact absurd (by simpa using hx) h
      next => rfl
    have hn := duesNeeded_of_agenda _ _ _ (hg.trans hc)
    rw [step_of_cpu_turn _ s.agenda (by rw [turnsAhead_of_not_needed _ hn, hg, hc]), takeTurn_of_not_needed _ hn, hg, hc,
      List.tail_cons]

/-- `withFetchWord` puts the word where the next step fetches it, and lets nothing keep it from fetching; what stood on the agenda
still stands there after it. -/
theorem withFetchWord_runs (s : State) (w : Nat) (i : Instr) (h : decode (BitVec.ofNat 16 w) = .ok i) :
    step (s.withFetchWord 16 w) = exec i { s.withFetchWord 16 w with agenda := s.agenda } := by
  have hw : BitVec.ofNat 16 (w % 2 ^ 16) = BitVec.ofNat 16 w := by
    apply BitVec.eq_of_toNat_eq
    simp
  rw [State.withFetchWord, step_placeFetchWord]
  apply cpuStep_of_fetch
  · rw [nextAction_fetch_iff]
    refine ⟨rfl, rfl, ?_, ?_, rfl⟩
    · show (s.pendT && !s.flags.tie && s.flags.tie) = false
      cases s.pendT <;> cases s.flags.tie <;> rfl
    · show (s.pendE && !s.flags.ie && s.flags.ie) = false
      cases s.pendE <;> cases s.flags.ie <;> rfl
  · have : ({ placeFetchWord s (BitVec.ofNat 16 (w % 2 ^ 16)) with agenda := s.agenda } : State).fetchWord = BitVec.ofNat 16 w := by
      show (s.readyToFetch.programWord (s.pc.setWidth 16) (BitVec.ofNat 16 (w % 2 ^ 16))).romRead (s.pc.setWidth 16) = _
      rw [programWord_romRead, hw]
    rw [this, h]

/-- From a state with nothing on the agenda and no port busy the placed word runs as the very next step, nothing else changed. -/
theorem withFetchWord_runs_idle (s : State) (w : Nat) (i : Instr) (ha : s.agenda = []) (hb : s.portBusy = false)
    (h : decode (BitVec.ofNat 16 w) = .ok i) : step (s.withFetchWord 16 w) = exec i (s.withFetchWord 16 w) := by
  have hg : (s.withFetchWord 16 w).agenda = s.cpuFirst := rfl
  rw [withFetchWord_runs s w i h, ha, ← cpuFirst_of_idle s ha hb, ← hg]

end Sys2Proof.Machine
end

