-- ==== Sys2Proof/Laws/Run.lean ====
section
/-! SUPPORT. Runs of the machine, one step and many: what an induction over a run cites. -/

namespace Sys2Proof.Machine

/-- A run whose first step goes on is the run from there, for any machine. -/
theorem core_run_succ (M : Host.Core) (n : Nat) (s u : M.State) (h : M.step s = .next u) :
    M.run (n + 1) s = M.run n u := by
  simp only [Host.Core.run, h]

/-- A run whose first step is refused is refused. -/
theorem core_run_refused (M : Host.Core) (n : Nat) (s : M.State) (r : M.Refusal) (h : M.step s = .refused r) :
    M.run (n + 1) s = .refused r := by
  simp only [Host.Core.run, h]

/-- A run of no steps. -/
theorem run_zero (s : State) : Host.Core.run Sys2Proof.core 0 s = .next s := rfl

/-- A run whose first step goes on is the run from there. -/
theorem run_succ (n : Nat) (s u : State) (h : step s = .next u) :
    Host.Core.run Sys2Proof.core (n + 1) s = Host.Core.run Sys2Proof.core n u :=
  core_run_succ Sys2Proof.core n s u h

/-- Two runs in a row. -/
theorem run_add (m n : Nat) (s u : State) (h : Host.Core.run Sys2Proof.core m s = .next u) :
    Host.Core.run Sys2Proof.core (m + n) s = Host.Core.run Sys2Proof.core n u := by
  induction m generalizing s with
  | zero =>
    rw [run_zero] at h
    cases h
    rw [Nat.zero_add]
  | succ m ih =>
    cases hs : step s with
    | next v =>
      rw [run_succ m s v hs] at h
      rw [Nat.add_right_comm, run_succ (m + n) s v hs]
      exact ih v h
    | fault r => cases r
    | refused r =>
      have := (core_run_refused Sys2Proof.core m s r hs).symm.trans h
      cases this

end Sys2Proof.Machine
end

