-- ==== Sys2Proof/Tests/Slice0.lean ====
section
/-! SUPPORT. The model's own tests: ill-formed terms refused, written-out words decoded, one step per vector of spec/95_test_vectors.md
(each expected value is the vector's), and for every claim with hypotheses a concrete state and operands that meet them. -/

namespace Sys2Proof.Tests

open Sys2Proof.Machine Sys2Proof.Claims

/-! Helpers. -/

/-- The start state of section 2 of the vectors: pc = 0100h, flags 0. -/
def start : State := { State.reset with pc := 0x0100 }

/-- The flags C and Z set as given. -/
def cz (s : State) (c z : Bool) : State := s.setFlags { s.flags with c := c, z := z }

/-- One field of the state after the word has run. -/
def after {α : Type} (s : State) (w : Nat) (f : State → α) : Option α :=
  match step (s.withFetchWord 16 w) with
  | .next t => some (f t)
  | .fault _ => none
  | .refused _ => none

/-- The refusal the word ends in. -/
def stop (s : State) (w : Nat) : Option Refusal :=
  match step (s.withFetchWord 16 w) with
  | .next _ => none
  | .fault _ => none
  | .refused r => some r

/-- A register with C and Z, the columns of the vectors. -/
def rcz (r : RegIdx) (t : State) : Byte × Bool × Bool := (t.x r, t.flags.c, t.flags.z)

/-- What a run of `n` moves leaves in one field. -/
def runField {α : Type} (n : Nat) (s : State) (f : State → α) : Option α :=
  match Host.Core.run Sys2Proof.core n s with
  | .next t => some (f t)
  | .fault _ => none
  | .refused _ => none

/-- What a reset leaves unspecified, as it could be: a UART transmitter that says it is busy. -/
def busyDraw : Unspecified :=
  { regs := Vector.replicate 15 0xAA, bak := Backup.zero, udiv := 1, ubusy := true, utx := 2, urx := 3, uhb := true, sdiv := 4
    sbusy := false, stx := 5, srx := 6, tdiv := 7, prescale := 8, tcapt := 9, timer := 10, ttop := 11, fdiv := 12 }

/-! WellFormed: the one check there is, with a term it refuses. -/

theorem test_wellFormed_refuses_ldi_r0 : Instr.wellFormed (.ldi 0 0x13) = false := by decide
theorem test_wellFormed_accepts_ldi_r1_and_ldioa : Instr.wellFormed (.ldi 1 0x13) = true ∧ Instr.wellFormed (.ldioa 0x13) = true := by decide

/-! Decoding: for every constructor, a word written out from spec/30_encoding.md R82 to R88 and the opcode tables. -/

theorem test_decode_immediate :
    decodeTableWord 16 0b0000011110100101 = some (.ldi 7 0xA5) ∧
    decodeTableWord 16 0b0000000000010011 = some (.ldioa 0x13) ∧
    decodeTableWord 16 0b0000000000000000 = some (.ldioa 0) := by decide

theorem test_decode_regreg_registers :
    decodeTableWord 16 0b0001000000010010 = some (.add 1 2) ∧
    decodeTableWord 16 0b0001000100010010 = some (.adc 1 2) ∧
    decodeTableWord 16 0b0001001000010010 = some (.sub 1 2) ∧
    decodeTableWord 16 0b0001001100010010 = some (.sbc 1 2) ∧
    decodeTableWord 16 0b0001010000010010 = some (.and 1 2) ∧
    decodeTableWord 16 0b0001010100010010 = some (.or 1 2) ∧
    decodeTableWord 16 0b0001011000010010 = some (.xor 1 2) ∧
    decodeTableWord 16 0b0001011100010010 = some (.not 1 2) ∧
    decodeTableWord 16 0b0001110001000101 = some (.getpc 4 5) ∧
    decodeTableWord 16 0b0001110101000101 = some (.jmpr 4 5) ∧
    decodeTableWord 16 0b0001111011111111 = some (.cmp 15 15) := by decide

theorem test_decode_regreg_immediates :
    decodeTableWord 16 0b0001100000011111 = some (.addi 1 15) ∧
    decodeTableWord 16 0b0001100100011111 = some (.adci 1 15) ∧
    decodeTableWord 16 0b0001101000010001 = some (.subi 1 1) ∧
    decodeTableWord 16 0b0001101100010001 = some (.sbci 1 1) := by decide

theorem test_decode_ext :
    decodeTableWord 16 0b0001111100010000 = some (.lsr 1) ∧
    decodeTableWord 16 0b0001111100010001 = some (.rrc 1) ∧
    decodeTableWord 16 0b0001111100010010 = some (.lsl 1) ∧
    decodeTableWord 16 0b0001111100010011 = some (.rlc 1) ∧
    decodeTableWord 16 0b0001111100010100 = some (.ror 1) ∧
    decodeTableWord 16 0b0001111100010101 = some (.rol 1) ∧
    decodeTableWord 16 0b0001111100110110 = some (.stioa 3) ∧
    decodeTableWord 16 0b0001111100010111 = some (.out 1) ∧
    decodeTableWord 16 0b0001111100101000 = some (.inp 2) ∧
    decodeTableWord 16 0b0001111101011001 = some (.cmpi 5) ∧
    decodeTableWord 16 0b0001111100001010 = some .wait ∧
    decodeTableWord 16 0b0001111100001011 = some .reti ∧
    decodeTableWord 16 0b0001111100111100 = some (.mul 3) ∧
    decodeTableWord 16 0b0001111101011101 = some (.rdf 5) ∧
    decodeTableWord 16 0b0001111101011110 = some (.wrf 5) ∧
    decodeTableWord 16 0b0001111111111111 = some .lpm := by decide

theorem test_decode_jump_branch :
    decodeTableWord 16 0b1111111111111111 = some (.jmp 0x3FFF) ∧
    decodeTableWord 16 0b0010000000000001 = some (.bcc 1) ∧
    decodeTableWord 16 0b0010010000000101 = some (.bcs 5) ∧
    decodeTableWord 16 0b0010101000000000 = some (.bnz 0x200) ∧
    decodeTableWord 16 0b0010111111111111 = some (.bz 0x3FF) := by decide

theorem test_decode_load_store :
    decodeTableWord 16 0b0100010100110010 = some (.ld 3 0x05 2) ∧
    decodeTableWord 16 0b1000010100010010 = some (.st 1 0x05 2) := by decide

theorem test_decode_refuses_prefix_0011 :
    decodeTableWord 16 0b0011000000000000 = none ∧ decodeTableWord 16 0b0011111111111111 = none := by decide

theorem test_encode_writes_the_same_words :
    encode (.ldi 7 0xA5) = 0x07A5 ∧ encode (.adci 2 15) = 0x192F ∧ encode (.bnz 0x1FF) = 0x29FF ∧
    encode (.ld 7 0x0F 5) = 0x4F75 ∧ encode (.jmp 0x3FFE) = 0xFFFE ∧ encode .reti = 0x1F0B := by decide

/-! Vectors 2.1: Immediate. -/

theorem test_ldi_keeps_flags : after (cz start true true) 0x07A5 (rcz 7) = some (0xA5, true, true) := by decide
theorem test_ldioa_selects : after start 0x0013 (fun t => (t.ioaddr, t.pc)) = some (0x13, 0x0101) := by decide

/-! Vectors 2.2: Reg/Reg. -/

theorem test_add_carries : after ((start.setX 1 0xF0).setX 2 0x20) 0x1012 (rcz 1) = some (0x10, true, false) := by decide
theorem test_add_to_r0_sets_flags : after (cz start true false) 0x1002 (rcz 0) = some (0x00, false, true) := by decide
theorem test_adc_wraps : after (cz ((start.setX 1 0xFF).setX 2 0x00) true false) 0x1112 (rcz 1) = some (0x00, true, true) := by decide
theorem test_sub_borrows : after ((start.setX 1 0x03).setX 2 0x05) 0x1212 (rcz 1) = some (0xFE, false, false) := by decide
theorem test_sub_same_register : after (start.setX 1 0x5C) 0x1211 (rcz 1) = some (0x00, true, true) := by decide
theorem test_sbc_full_borrow : after ((start.setX 1 0x00).setX 2 0xFF) 0x1312 (rcz 1) = some (0x00, false, true) := by decide
theorem test_and_keeps_carry : after (cz ((start.setX 1 0xF0).setX 2 0x0F) true false) 0x1412 (rcz 1) = some (0x00, true, true) := by decide
theorem test_or : after ((start.setX 1 0xF0).setX 2 0x0F) 0x1512 (rcz 1) = some (0xFF, false, false) := by decide
theorem test_xor_same_register : after (start.setX 1 0x5A) 0x1611 (rcz 1) = some (0x00, false, true) := by decide
theorem test_not_reads_second_operand : after (start.setX 2 0xFF) 0x1712 (rcz 1) = some (0x00, false, true) := by decide
theorem test_addi_wraps : after (start.setX 1 0xF1) 0x181F (rcz 1) = some (0x00, true, true) := by decide
theorem test_adci_carry_in : after (cz (start.setX 1 0xFF) true false) 0x1910 (rcz 1) = some (0x00, true, true) := by decide
theorem test_subi_borrows : after (start.setX 1 0x00) 0x1A11 (rcz 1) = some (0xFF, false, false) := by decide
theorem test_sbci_borrow_in : after (start.setX 1 0x00) 0x1B10 (rcz 1) = some (0xFF, false, false) := by decide
theorem test_getpc : after start 0x1C45 (fun t => (t.x 4, t.x 5)) = some (0x02, 0x01) := by decide
theorem test_getpc_wraps : after { start with pc := 0x3FFF } 0x1C45 (fun t => (t.x 4, t.x 5, t.pc)) = some (0x01, 0x00, 0x0000) := by decide
theorem test_jmpr_drops_bits : after ((start.setX 4 0x34).setX 5 0xF2) 0x1D45 (fun t => t.pc) = some 0x3234 := by decide
theorem test_cmp_equal : after ((start.setX 1 0x05).setX 2 0x05) 0x1E12 (rcz 1) = some (0x05, true, true) := by decide
theorem test_cmp_below : after ((start.setX 1 0x05).setX 2 0x06) 0x1E12 (rcz 1) = some (0x05, false, false) := by decide

/-! Vectors 2.3: Jump and Conditional Branch. -/

theorem test_jmp : after start 0xFFFF (fun t => t.pc) = some 0x3FFF := by decide
theorem test_bcc_taken_backwards : after start 0x23FF (fun t => t.pc) = some 0x00FF := by decide
theorem test_bcc_not_taken : after (cz start true false) 0x23FF (fun t => t.pc) = some 0x0101 := by decide
theorem test_bcs_taken : after (cz start true false) 0x2405 (fun t => t.pc) = some 0x0105 := by decide
theorem test_bnz_wraps : after start 0x2A00 (fun t => t.pc) = some 0x3F00 := by decide
theorem test_bz_taken : after (cz start false true) 0x2DFF (fun t => t.pc) = some 0x02FF := by decide

/-! Vectors 2.4: Load and Store. -/

theorem test_st_writes_byte : after ((start.setX 1 0xAB).setX 2 0x03) 0x8512 (fun t => t.ram) = some [(8, 0xAB)] := by decide
theorem test_st_stops_at_64 : stop (start.setX 1 0x01) 0xBF11 = some .dataAddressOutOfRange := by decide
theorem test_ld_reads_byte : after ((start.setX 2 0x03).ramWrite 8 0xAB) 0x4532 (fun t => t.x 3) = some 0xAB := by decide
theorem test_ld_stops_on_unwritten : stop start 0x4010 = some .ramByteNeverWritten := by decide

/-! Vectors 2.5: EXT. -/

theorem test_lsr : after (start.setX 1 0x81) 0x1F10 (rcz 1) = some (0x40, true, false) := by decide
theorem test_rrc : after (cz (start.setX 1 0x02) true false) 0x1F11 (rcz 1) = some (0x81, false, false) := by decide
theorem test_lsl : after (start.setX 1 0x81) 0x1F12 (rcz 1) = some (0x02, true, false) := by decide
theorem test_rlc : after (cz (start.setX 1 0x80) true false) 0x1F13 (rcz 1) = some (0x01, true, false) := by decide
theorem test_ror_keeps_carry : after (start.setX 1 0x01) 0x1F14 (rcz 1) = some (0x80, false, false) := by decide
theorem test_rol_keeps_carry : after (cz (start.setX 1 0x81) false true) 0x1F15 (rcz 1) = some (0x03, false, false) := by decide
theorem test_stioa : after (start.setX 3 0x08) 0x1F36 (fun t => t.ioaddr) = some 0x08 := by decide
theorem test_out_porta : after ((start.setX 1 0xA5).setIoaddr 0x01) 0x1F17 (fun t => t.io.porta) = some 0xA5 := by decide
theorem test_out_captures :
    after (((start.setX 1 0x77).setIoaddr 0x0D).setIo { IoRegs.reset with timer := 0x1234 }) 0x1F17 (fun t => t.io.tcapt) = some 0x1234 := by decide
theorem test_in_pw_after_reset : after (start.setIoaddr 0x13) 0x1F28 (fun t => t.x 2) = some 0x80 := by decide
theorem test_in_stat :
    after ((start.setIoaddr 0x09).setIo { IoRegs.reset with ubusy := true, uhb := true }) 0x1F28 (fun t => t.x 2) = some 0x05 := by decide
theorem test_cmpi_reads_r1 : after (start.setX 1 0x05) 0x1F59 (rcz 1) = some (0x05, true, true) := by decide
theorem test_wait_advances_first : after start 0x1F0A (fun t => (t.pc, t.waiting)) = some (0x0101, true) := by decide
theorem test_reti_restores :
    after (cz { start with bak := { pc := 0x000A, ioaddr := 0x00, flags := Flags.ofByte 0x04 }, ioaddr := 0x01, inHandler := true } true true)
      0x1F0B (fun t => (t.pc, t.ioaddr, t.flags, t.inHandler)) =
    some (0x000A, 0x00, { c := false, z := false, ie := true, tie := false }, false) := by decide
theorem test_mul_unsigned : after ((start.setX 1 0xFF).setX 3 0xFF) 0x1F3C (fun t => (t.x 1, t.x 2)) = some (0x01, 0xFE) := by decide
theorem test_mul_by_r2 : after ((start.setX 1 0x03).setX 2 0x04) 0x1F2C (fun t => (t.x 1, t.x 2)) = some (0x0C, 0x00) := by decide
theorem test_rdf : after (start.setFlags { c := true, z := false, ie := true, tie := true }) 0x1F5D (fun t => t.x 5) = some 0x0D := by decide
theorem test_wrf_ignores_high_bits :
    after (start.setX 5 0xF6) 0x1F5E (fun t => t.flags) = some { c := false, z := true, ie := true, tie := false } := by decide
theorem test_wrf_stops_in_handler : stop ({ start with inHandler := true }.setX 5 0x04) 0x1F5E = some .enableInsideHandler := by decide
theorem test_lpm : after ((start.setX 2 0x20).programWord 0x0020 0xBEEF) 0x1F0F (fun t => (t.x 1, t.x 2)) = some (0xEF, 0xBE) := by decide
theorem test_lpm_above_pc_reach :
    after ((start.setX 3 0x40).programWord 0x4000 0x1234) 0x1F0F (fun t => (t.x 1, t.x 2)) = some (0x34, 0x12) := by decide

/-! IO side effects and stops (2.5). -/

theorem test_in_udr_clears_uhb :
    after ((start.setIoaddr 0x08).setIo { IoRegs.reset with urx := 0x5A, uhb := true }) 0x1F28 (fun t => (t.x 2, t.io.uhb)) =
      some (0x5A, false) := by decide
theorem test_in_capture_pair :
    after ((start.setIoaddr 0x0E).setIo { IoRegs.reset with tcapt := 0x1234 }) 0x1F28 (fun t => t.x 2) = some 0x34 ∧
    after ((start.setIoaddr 0x0F).setIo { IoRegs.reset with tcapt := 0x1234 }) 0x1F28 (fun t => t.x 2) = some 0x12 := by decide
theorem test_in_load_trigger_loads_nothing :
    after ((start.setIoaddr 0x10).setIo { IoRegs.reset with tcapt := 0x1234, timer := 0x0005 }) 0x1F28 (fun t => (t.io, t.pc)) =
      some ({ IoRegs.reset with tcapt := 0x1234, timer := 0x0005 }, 0x0101) := by decide
theorem test_handed_byte_outlives_reset :
    after ((start.setX 1 0x41).setIoaddr 0x08) 0x1F17 (fun t => (applyEvent (.assertRSTD busyDraw) t).uartHanded) = some [0x41] ∧
    after ((start.setX 1 0x41).setIoaddr 0x0B) 0x1F17 (fun t => (applyEvent (.assertRSTD busyDraw) t).spiHanded) = some [0x41] := by decide
theorem test_out_unassigned_stops : stop (start.setIoaddr 0x16) 0x1F17 = some .unassignedIoAddress := by decide
theorem test_out_udr_busy_stops :
    stop ((start.setIoaddr 0x08).setIo { IoRegs.reset with ubusy := true }) 0x1F17 = some .uartWriteWhileBusy := by decide
theorem test_undefined_word_stops : stop start 0x3FFF = some (.undefinedEncoding 0x3FFF) := by decide

/-! Vectors 2.7: interrupts and the timer. -/

/-- The situation of vector I1, with the timer's latch as given. -/
def boundary (pendT : Bool) : State :=
  { State.reset with
    pc := 0x0123, ioaddr := 0x09, flags := { c := true, z := false, ie := true, tie := true }, pendE := true, pendT := pendT }

theorem test_I1_external_entry :
    runField 1 (boundary false) (fun t => (t.bak, t.pc, t.flags, t.pendE, t.inHandler)) =
    some ({ pc := 0x0123, ioaddr := 0x09, flags := Flags.ofByte 0x0D }, 0x0001,
      { c := true, z := false, ie := false, tie := false }, false, true) := by decide
theorem test_I2_timer_first :
    runField 1 (boundary true) (fun t => (t.pc, t.pendT, t.pendE)) = some (0x0002, false, true) := by decide
theorem test_I3_I8_edges :
    (applyEvent (.driveINT false) { State.reset with pins := { Pins.reset with int := true } }).pendE = false ∧
    (applyEvent (.driveINT true) { State.reset with flags := Flags.ofByte 0x04 }).pendE = false ∧
    (applyEvent (.driveINT false) { State.reset with flags := Flags.ofByte 0x04, pins := { Pins.reset with int := true } }).pendE = true := by
  decide
theorem test_I5_timer_counts :
    runField 4 { State.reset with flags := Flags.ofByte 0x08, io := { IoRegs.reset with ttop := 3 }, agenda := clocks 4 }
      (fun t => (t.io.timer, t.pendT)) = some (0, true) := by decide
theorem test_I6_no_trace_when_disabled :
    runField 4 { State.reset with io := { IoRegs.reset with ttop := 3 }, agenda := clocks 4 } (fun t => (t.io.timer, t.pendT)) =
      some (0, false) := by decide
theorem test_I7_timer_above_top :
    (applyEvent (.timerClock true) { State.reset with io := { IoRegs.reset with ttop := 0x0010, timer := 0x0100 } }).io.timer = 0 := by decide

/-! Witnesses: what a claim assumes can be met, each clause at a boundary value where it has one. -/

theorem witness_DecodeInvertsEncode : Instr.wellFormed (.ldi 15 0xFF) = true ∧ Instr.wellFormed .lpm = true := by decide

theorem witness_DecodeTotalOutsideReservedPrefix :
    (0x2FFF#16).toNat / 4096 ≠ 3 ∧ (0x4000#16).toNat / 4096 ≠ 3 ∧ (0x3000#16).toNat / 4096 = 3 ∧ (0x3FFF#16).toNat / 4096 = 3 := by decide

theorem witness_EncodeInvertsDecodeUpToIgnoredSlot : decode 0x1FFF = .ok .lpm ∧ decode 0x1012 = .ok (.add 1 2) := ⟨rfl, rfl⟩

/-- A state whose flash holds one word at PC and whose agenda is as given. -/
def fetching (w : Word) (agenda : List Turn) : State := { start.programWord 0x0100 w with agenda := agenda }

theorem witness_StepRunsDecodedInstruction_idle_agenda :
    CpuMoves (fetching 0x1012 []) (fetching 0x1012 []) ∧ Running (fetching 0x1012 []) ∧ ¬TimerReady (fetching 0x1012 []) ∧
    ¬ExternalReady (fetching 0x1012 []) ∧ (fetching 0x1012 []).waiting = false ∧
    decodeBytes [(fetching 0x1012 []).flashRead 0x200, (fetching 0x1012 []).flashRead 0x201] = .ok (.add 1 2, []) :=
  ⟨⟨.inl rfl, rfl⟩, ⟨rfl, rfl⟩, nofun, nofun, rfl, rfl⟩

theorem witness_StepRunsDecodedInstruction_cpu_turn :
    CpuMoves (fetching 0x1012 [.cpu]) (fetching 0x1012 []) ∧ Running (fetching 0x1012 [.cpu]) ∧ ¬TimerReady (fetching 0x1012 [.cpu]) ∧
    ¬ExternalReady (fetching 0x1012 [.cpu]) ∧ (fetching 0x1012 [.cpu]).waiting = false :=
  ⟨⟨.inr ⟨[], rfl⟩, rfl⟩, ⟨rfl, rfl⟩, nofun, nofun, rfl⟩

theorem witness_UndefinedWordIsRefused :
    CpuMoves (fetching 0x3000 []) (fetching 0x3000 []) ∧ Running (fetching 0x3000 []) ∧ ¬TimerReady (fetching 0x3000 []) ∧
    ¬ExternalReady (fetching 0x3000 []) ∧ (fetching 0x3000 []).waiting = false ∧ (fetching 0x3000 []).fetchWord.toNat / 4096 = 3 ∧
    (fetching 0x3FFF []).fetchWord.toNat / 4096 = 3 :=
  ⟨⟨.inl rfl, rfl⟩, ⟨rfl, rfl⟩, nofun, nofun, rfl, rfl, rfl⟩

/-- The side condition "not r0" of every claim about a result register, and "another register" of its frame. -/
theorem witness_destination_is_not_r0 : (1 : RegIdx) ≠ 0 ∧ (15 : RegIdx) ≠ 0 ∧ (2 : RegIdx) ∉ [(1 : RegIdx)] := by decide

theorem witness_CarryChainsSixteenBitArithmetic : (1 : RegIdx) ≠ 0 ∧ (2 : RegIdx) ≠ 0 ∧ (1 : RegIdx) ≠ 2 ∧ (4 : RegIdx) ≠ 1 := by decide

theorem witness_GetpcStoresReturnAddress : ((4 : RegIdx) ≠ 5 ∨ (4 : RegIdx) = 0) ∧ ((0 : RegIdx) ≠ 0 ∨ (0 : RegIdx) = 0) := by decide

theorem witness_GetpcSameRegisterRuns : (4 : RegIdx) ≠ 0 := by decide

theorem witness_BranchesFollowTheirCondition : (!start.flags.c) = true ∧ start.flags.c = false ∧ (cz start true true).flags.z = true := by decide

theorem witness_CallAndReturn :
    (14 : RegIdx) ≠ 0 ∧ (15 : RegIdx) ≠ 0 ∧ (14 : RegIdx) ≠ 15 ∧ ∃ v : State, v.x 14 = start.x 14 ∧ v.x 15 = start.x 15 :=
  ⟨by decide, by decide, by decide, start, rfl, rfl⟩

theorem witness_LdLoadsRamByte :
    effectiveAddress ((start.setX 2 0x03).ramWrite 63 0xAB) 0x3C 2 < 64 ∧
    ((start.setX 2 0x03).ramWrite 63 0xAB).ramRead (effectiveAddress ((start.setX 2 0x03).ramWrite 63 0xAB) 0x3C 2) = some 0xAB ∧
    effectiveAddress (start.ramWrite 0 0x77) 0 0 < 64 ∧ (start.ramWrite 0 0x77).ramRead 0 = some 0x77 := by decide

theorem witness_StStoresRamByte : effectiveAddress start 0x3F 0 < 64 ∧ effectiveAddress start 0 0 < 64 ∧ 62 ≠ effectiveAddress start 0x3F 0 := by decide

theorem witness_DataAccessRefusals :
    64 ≤ (0x3F#6).toNat + ((start.setX 1 0x01).x 1).toNat ∧
    ((0x3F#6).toNat + (start.x 1).toNat < 64 ∧ start.ramRead ((0x3F#6).toNat + (start.x 1).toNat) = none) := by decide

theorem witness_LoadAfterStoreReturnsValue :
    ∃ t, exec (.st 1 0x05 2) (start.setX 2 0x03) = .next t ∧ (3 : RegIdx) ≠ 0 ∧
      (0x08#6).toNat + (t.x 0).toNat = (0x05#6).toNat + ((start.setX 2 0x03).x 2).toNat :=
  ⟨_, rfl, by decide, by decide⟩

/-- In a handler, and r5 holding `v`. -/
def inHandlerWith (v : Byte) : State := { start with inHandler := true }.setX 5 v

theorem witness_WrfWritesFlags :
    ¬(start.inHandler = true ∧ ((start.x 5).getLsbD 2 = true ∨ (start.x 5).getLsbD 3 = true)) ∧
    ¬((inHandlerWith 0xF3).inHandler = true ∧ (((inHandlerWith 0xF3).x 5).getLsbD 2 = true ∨ ((inHandlerWith 0xF3).x 5).getLsbD 3 = true)) ∧
    ((inHandlerWith 0x04).inHandler = true ∧ ((inHandlerWith 0x04).x 5).getLsbD 2 = true) ∧
    ((inHandlerWith 0x08).inHandler = true ∧ ((inHandlerWith 0x08).x 5).getLsbD 3 = true) := by decide

theorem witness_OutWritesMappedStorage :
    (storageByte start.io (start.setIoaddr 0x00).ioaddr.toNat).isSome = true ∧
    (storageByte start.io (start.setIoaddr 0x15).ioaddr.toNat).isSome = true ∧
    (start.setIoaddr 0x15).ioaddr.toNat ≠ 0x0C ∧ (1 : Nat) ≠ (start.setIoaddr 0x00).ioaddr.toNat := by decide

theorem witness_InReadsMappedStorage :
    storageByte (start.setIoaddr 0x13).io (start.setIoaddr 0x13).ioaddr.toNat = some 0x80 ∧
    storageByte (start.setIoaddr 0x00).io (start.setIoaddr 0x00).ioaddr.toNat = some 0x00 := by decide

theorem witness_GpioDirectionAndPort :
    (start.setIoaddr 0x00).ioaddr = 0x00 ∧ (start.setIoaddr 0x01).ioaddr = 0x01 ∧ (start.setIoaddr 0x02).ioaddr = 0x02 ∧
    (start.setIoaddr 0x03).ioaddr = 0x03 ∧ (2 : RegIdx) ≠ 0 := by decide

theorem witness_InReadsInputPins :
    (start.setIoaddr 0x04).ioaddr = 0x04 ∧ (start.setIoaddr 0x05).ioaddr = 0x05 ∧
    (start.setIoaddr 0x04).io.ddra.getLsbD 7 = false ∧ (start.setIoaddr 0x05).io.ddrb.getLsbD 0 = false := by decide

theorem witness_StatAndReadOnlyAddresses :
    (start.setIoaddr 0x09).ioaddr = 0x09 ∧ (start.setIoaddr 0x04).ioaddr = 0x04 ∧ (start.setIoaddr 0x05).ioaddr = 0x05 := by decide

theorem witness_IoRefusals :
    0x16 ≤ (start.setIoaddr 0x16).ioaddr.toNat ∧ 0x16 ≤ (start.setIoaddr 0xFF).ioaddr.toNat ∧
    (start.setIoaddr 0x08).ioaddr = 0x08 ∧ (start.setIoaddr 0x0B).ioaddr = 0x0B ∧
    ({ IoRegs.reset with ubusy := true } : IoRegs).ubusy = true ∧ ({ IoRegs.reset with sbusy := true } : IoRegs).sbusy = true := by decide

theorem witness_TimerCaptureAndLoad :
    (start.setIoaddr 0x0D).ioaddr = 0x0D ∧ (start.setIoaddr 0x10).ioaddr = 0x10 ∧
    (start.setIo { IoRegs.reset with ttop := 3, tcapt := 4 }).io.ttop.toNat < (start.setIo { IoRegs.reset with ttop := 3, tcapt := 4 }).io.tcapt.toNat := by
  decide

theorem witness_UartTransmitsHandedByte :
    (start.setIoaddr 0x08).ioaddr = 0x08 ∧ (start.setIoaddr 0x08).io.ubusy = false ∧ (start.setIoaddr 0x08).pins.rstd = true ∧
    (start.setIo { IoRegs.reset with ubusy := true }).pins.rstd = true ∧ NoResetAhead (start.setIo { IoRegs.reset with ubusy := true }) ∧
    (start.setIo { IoRegs.reset with ubusy := true }).io.ubusy = true :=
  ⟨rfl, rfl, rfl, rfl, nofun, rfl⟩

theorem witness_UartReceiveAndUdrRead : start.pins.rstd = true ∧ (start.setIoaddr 0x08).ioaddr = 0x08 ∧ (2 : RegIdx) ≠ 0 := by decide

theorem witness_SpiTransferRoundTrip :
    (start.setIoaddr 0x0B).ioaddr = 0x0B ∧ (start.setIoaddr 0x0B).io.sbusy = false ∧ (start.setIoaddr 0x0B).pins.rstd = true ∧
    (start.setIo { IoRegs.reset with sbusy := true }).pins.rstd = true ∧ NoResetAhead (start.setIo { IoRegs.reset with sbusy := true }) ∧
    (start.setIo { IoRegs.reset with sbusy := true }).io.sbusy = true :=
  ⟨rfl, rfl, rfl, rfl, nofun, rfl⟩

theorem witness_SdrReadIdleAndBusy :
    (start.setIoaddr 0x0B).ioaddr = 0x0B ∧ (start.setIoaddr 0x0B).io.sbusy = false ∧
    ((start.setIoaddr 0x0B).setIo { IoRegs.reset with sbusy := true }).ioaddr = 0x0B ∧
    ((start.setIoaddr 0x0B).setIo { IoRegs.reset with sbusy := true }).io.sbusy = true := by decide

/-- Halted, nothing pending, both enables clear, one timer clock to come. -/
def halted : State := { start with waiting := true, agenda := [.event (.timerClock false)] }

theorem witness_WaitingBit :
    CpuMoves { start with waiting := true } { start with waiting := true } ∧ ({ start with waiting := true } : State).waiting = true ∧
    ¬TimerReady { start with waiting := true } ∧ ¬ExternalReady { start with waiting := true } :=
  ⟨⟨.inl rfl, rfl⟩, rfl, nofun, nofun⟩

theorem witness_WaitWithEnablesClearHaltsForever :
    halted.waiting = true ∧ halted.flags.ie = false ∧ halted.flags.tie = false ∧
    NoResetAhead halted :=
  ⟨rfl, rfl, rfl, fun u h => by simp [halted] at h⟩

theorem witness_InterruptEntryAtBoundary :
    (CpuMoves (boundary true) (boundary true) ∧ Running (boundary true) ∧ TimerReady (boundary true)) ∧
    (CpuMoves (boundary false) (boundary false) ∧ Running (boundary false) ∧ ¬TimerReady (boundary false) ∧ ExternalReady (boundary false)) :=
  ⟨⟨⟨.inl rfl, rfl⟩, ⟨rfl, rfl⟩, ⟨rfl, rfl⟩⟩, ⟨⟨.inl rfl, rfl⟩, ⟨rfl, rfl⟩, nofun, ⟨rfl, rfl⟩⟩⟩

theorem witness_HandlerReturnRestoresContext :
    (interruptEntry .timer (boundary true)).bak = (interruptEntry .timer (boundary true)).bak ∧
    Running (interruptEntry .timer (boundary true)) ∧ (interruptEntry .timer (boundary true)).pendT = false ∧
    (interruptEntry .timer (boundary true)).pendE = true ∧ (boundary true).flags.ie = true ∧
    Running (interruptEntry .external (boundary true)) ∧ (interruptEntry .external (boundary true)).pendT = true ∧
    (boundary true).flags.tie = true :=
  ⟨rfl, ⟨rfl, rfl⟩, rfl, rfl, rfl, ⟨rfl, rfl⟩, rfl, rfl⟩

/-- A timer handler, entered from `boundary true`, whose next word is RETI. -/
def atReti : State := (interruptEntry .timer (boundary true)).programWord 0x0002 0x1F0B

theorem witness_SimultaneousRequestsTimerFirst :
    CpuMoves (boundary true) (boundary true) ∧ Running (boundary true) ∧ TimerReady (boundary true) ∧ ExternalReady (boundary true) ∧
    CpuMoves atReti atReti ∧ Running atReti ∧ atReti.bak = (interruptEntry .timer (boundary true)).bak ∧ atReti.pendE = true ∧
    atReti.pendT = false ∧ atReti.flags.ie = false ∧ atReti.waiting = false ∧ decode atReti.fetchWord = .ok .reti ∧
    CpuMoves (returnFromInterrupt atReti) (returnFromInterrupt atReti) :=
  ⟨⟨.inl rfl, rfl⟩, ⟨rfl, rfl⟩, ⟨rfl, rfl⟩, ⟨rfl, rfl⟩, ⟨.inl rfl, rfl⟩, ⟨rfl, rfl⟩, rfl, rfl, rfl, rfl, rfl, rfl, ⟨.inl rfl, rfl⟩⟩

theorem witness_InterruptEnableBits :
    start.flags.ie = false ∧ start.flags.tie = false ∧ Running (boundary true) ∧ (boundary true).pendT = true ∧
    (boundary true).flags.tie = true ∧ Running (boundary false) ∧ (boundary false).pendT = false ∧ (boundary false).pendE = true ∧
    (boundary false).flags.ie = true ∧ (start.setX 5 0x0C).x 5 = 0x0C ∧ (start.setX 5 0x0C).inHandler = false ∧
    (∃ t, exec (.add 1 2) start = .next t) ∧ (∀ a, Instr.add 1 2 ≠ .wrf a) ∧ Instr.add 1 2 ≠ .reti :=
  ⟨rfl, rfl, ⟨rfl, rfl⟩, rfl, rfl, ⟨rfl, rfl⟩, rfl, rfl, rfl, rfl, rfl, ⟨_, rfl⟩, nofun, nofun⟩

theorem witness_IntNegativeEdgeLatches : start.pins.rstd = true := rfl

theorem witness_PauseStopsTheCpu :
    (CpuMoves { start with pins := { Pins.reset with pause := true } } { start with pins := { Pins.reset with pause := true } }) ∧
    ({ start with pins := { Pins.reset with pause := true } } : State).pins.pause = true ∧
    ({ start with pins := { Pins.reset with rstd := false } } : State).pins.rstd = false :=
  ⟨⟨.inl rfl, rfl⟩, rfl, rfl⟩

/-- A timer about to count to 3, one tick each second clock. -/
def counting : State := start.setIo { IoRegs.reset with ttop := 3, tdiv := 1 }

theorem witness_TimerCountsToTop :
    counting.pins.rstd = true ∧ counting.io.timer = 0 ∧ counting.io.prescale = 0 ∧ 3 ≤ counting.io.ttop.toNat ∧
    4 = counting.io.ttop.toNat + 1 := by decide

theorem witness_TimerAboveTopResets :
    (start.setIo { IoRegs.reset with ttop := 0xFFFE, timer := 0xFFFF }).pins.rstd = true ∧
    (start.setIo { IoRegs.reset with ttop := 0xFFFE, timer := 0xFFFF }).io.ttop.toNat <
      (start.setIo { IoRegs.reset with ttop := 0xFFFE, timer := 0xFFFF }).io.timer.toNat ∧
    (start.setIo { IoRegs.reset with ttop := 0xFFFE, timer := 0xFFFF }).io.prescale =
      (start.setIo { IoRegs.reset with ttop := 0xFFFE, timer := 0xFFFF }).io.tdiv := by decide

/-- After that reset, with RSTD high again and the transmitter finished. -/
def afterReset : State :=
  [Event.uartSent].foldl (fun x e => applyEvent e x) (applyEvent .releaseRSTD (applyEvent (.assertRSTD busyDraw) (start.programWord 0 0xC003)))

theorem witness_FirstInstructionAfterResetIsWordZero :
    (∀ v, Event.assertRSTD v ∉ [Event.uartSent]) ∧ decode ((start.programWord 0 0xC003).romRead 0) = .ok (.jmp 0x0003) ∧
    afterReset.pins.pause = false ∧ CpuMoves afterReset afterReset :=
  ⟨nofun, rfl, rfl, ⟨.inl rfl, rfl⟩⟩

theorem witness_InstructionFrames :
    (∃ t, exec (.add 1 2) start = .next t) ∧ (2 : RegIdx) ∉ destinations (.add 1 2) ∧ transfersControl (.add 1 2) = false ∧
    (∀ src base idx, Instr.add 1 2 ≠ .st src base idx) ∧ (∀ a, Instr.add 1 2 ≠ .out a) ∧ (∀ a, Instr.add 1 2 ≠ .inp a) ∧
    (∀ v, Instr.add 1 2 ≠ .ldioa v) ∧ (∀ a, Instr.add 1 2 ≠ .stioa a) ∧ Instr.add 1 2 ≠ .reti :=
  ⟨⟨_, rfl⟩, by decide, rfl, nofun, nofun, nofun, nofun, nofun, nofun⟩

theorem witness_NoStepChangesProgramRom : ∃ t, step (start.withFetchWord 16 0x8512) = .next t := ⟨_, rfl⟩

theorem witness_BackupWrittenOnlyByEntry : ∃ t, step (boundary true) = .next t ∧ t.bak.pc = 0x0123 := ⟨_, rfl, rfl⟩

theorem witness_StepKeepsInvariant :
    (start.withFetchWord 16 0x8512).Inv ∧ ∃ t, step (start.withFetchWord 16 0x8512) = .next t :=
  ⟨⟨by decide, by decide, nofun⟩, _, rfl⟩

theorem witness_NoEntryInsideHandler :
    (atReti.withFetchWord 16 0x1F0B).Inv ∧ (atReti.withFetchWord 16 0x1F0B).inHandler = true ∧
    ∃ t, step (atReti.withFetchWord 16 0x1F0B) = .next t :=
  ⟨⟨by decide, by decide, fun _ => ⟨rfl, rfl⟩⟩, rfl, _, rfl⟩

end Sys2Proof.Tests
end

section
/-! r0 and the register file: a read after a write (R7, R21). -/

namespace Sys2Proof.Machine

/-- Settles O7: r0 by `State.x_zero` and `State.setX_zero`, any other register by the read-after-write laws of `setX`. -/
theorem zeroRegisterAndRegisterWrites : Obligations.ZeroRegisterAndRegisterWrites :=
  fun s r v => ⟨s.x_zero, s.setX_zero v, s.setX_x_same r v, fun q hq => s.setX_x_ne r q v hq⟩

end Sys2Proof.Machine
end

section
/-! Frames of the shared write shapes, in the vocabulary of the claims. -/

namespace Sys2Proof.Machine

open Sys2Proof.Claims

/-! What a register file after writes keeps. -/

theorem otherRegsKept_setX (s : State) (a : RegIdx) (v : Byte) : OtherRegsKept [a] s (s.setX a v) := by
  intro r hr
  exact s.setX_x_ne a r v (by simpa using hr)

theorem otherRegsKept_setX_setX (s : State) (a b : RegIdx) (v w : Byte) :
    OtherRegsKept [a, b] s ((s.setX a v).setX b w) := by
  intro r hr
  simp only [List.mem_cons, List.not_mem_nil, or_false, not_or] at hr
  obtain ⟨ha, hb⟩ := hr
  rw [State.setX_x_ne _ b r w hb, State.setX_x_ne s a r v ha]

/-- Only the register file differs after two register writes. -/
theorem setX_setX_eq (s : State) (a b : RegIdx) (v w : Byte) :
    (s.setX a v).setX b w = { s with regs := ((s.setX a v).setX b w).regs } := by
  rw [State.setX_eq (s.setX a v) b w, State.setX_eq s a v]

/-! Frames. -/

/-- Advancing is the move to the next word of R24. -/
theorem pcNext_advance (s u : State) (h : u.pc = s.pc) : PcNext s u.advance := by
  rw [PcNext, advance_pc_toNat, h]

/-- Registers written, then on to the next word. -/
theorem registerFrame_advance (dst : List RegIdx) (s u : State) (hu : u = { s with regs := u.regs })
    (hx : OtherRegsKept dst s u) : RegisterFrame dst s u.advance := by
  refine ⟨?_, hx, ?_, pcNext_advance s u (by rw [hu]), ?_⟩
  · rw [hu]; rfl
  · rw [hu]; exact fun _ => rfl
  · rw [hu]; rfl

theorem registerFrame_setX (s : State) (a : RegIdx) (v : Byte) : RegisterFrame [a] s (s.setX a v).advance :=
  registerFrame_advance [a] s _ (s.setX_eq a v) (otherRegsKept_setX s a v)

theorem registerFrame_setX_setX (s : State) (a b : RegIdx) (v w : Byte) :
    RegisterFrame [a, b] s ((s.setX a v).setX b w).advance :=
  registerFrame_advance [a, b] s _ (setX_setX_eq s a b v w) (otherRegsKept_setX_setX s a b v w)

/-- Writing no flag is writing no enable. -/
theorem arithmeticFrame_of_registerFrame {dst : List RegIdx} {s t : State} (h : RegisterFrame dst s t) : ArithmeticFrame dst s t := by
  obtain ⟨honly, hregs, hram, hpc, hflags⟩ := h
  exact ⟨honly, hregs, hram, hpc, by rw [hflags], by rw [hflags]⟩

/-- A register and the flags C and Z written, then on to the next word: the shape of `writeBack`. -/
theorem arithmeticFrame_writeBack (s : State) (a : RegIdx) (r : Byte × Flags) (hie : r.2.ie = s.flags.ie)
    (htie : r.2.tie = s.flags.tie) : ArithmeticFrame [a] s ((s.setX a r.1).setFlags r.2).advance := by
  refine ⟨?_, otherRegsKept_setX s a r.1, ?_, pcNext_advance s _ (s.setX_pc a r.1), hie, htie⟩
  · rw [State.setX_eq]; rfl
  · intro k; simp

/-- The flags C and Z written, then on to the next word: the shape of `writeFlags`. -/
theorem arithmeticFrame_writeFlags (s : State) (r : Byte × Flags) (hie : r.2.ie = s.flags.ie)
    (htie : r.2.tie = s.flags.tie) : ArithmeticFrame [] s (s.setFlags r.2).advance :=
  ⟨rfl, fun _ _ => rfl, fun _ => rfl, pcNext_advance s _ rfl, hie, htie⟩

end Sys2Proof.Machine
end

section
/-! What an instruction that goes on can do, said once: one case for each kind of effect. -/

namespace Sys2Proof.Machine

open Sys2Proof.Claims

/-! The meanings that can stop, where they go on. -/

theorem execLd_next (s t : State) (d : RegIdx) (base : BitVec Config.ldstBaseBits) (idx : RegIdx)
    (h : execLd d base idx s = .next t) :
    ∃ a v, dataAddress (effectiveAddress s base idx) = some a ∧ s.ramRead a = some v ∧ t = (s.setX d v).advance := by
  unfold execLd at h
  split at h
  next => cases h
  next a ha =>
    split at h
    next => cases h
    next v hv => exact ⟨a, v, ha, hv, by cases h; rfl⟩

theorem execSt_next (s t : State) (src : RegIdx) (base : BitVec Config.ldstBaseBits) (idx : RegIdx)
    (h : execSt src base idx s = .next t) :
    ∃ a, dataAddress (effectiveAddress s base idx) = some a ∧ t = (s.ramWrite a (s.x src)).advance := by
  unfold execSt at h
  split at h
  next => cases h
  next a ha => exact ⟨a, ha, by cases h; rfl⟩

/-- WRF stops inside a handler where it would set an enable (D19). -/
theorem execWrf_refused (a : RegIdx) (s : State) (hh : s.inHandler = true)
    (hb : (s.x a).getLsbD 2 = true ∨ (s.x a).getLsbD 3 = true) : execWrf a s = .refused .enableInsideHandler := by
  rw [← Bool.or_eq_true] at hb
  simp only [execWrf, hh, Flags.ofByte_ie, Flags.ofByte_tie, hb, Bool.and_self, if_true]

/-- WRF goes on only with both enable bits 0 inside a handler, and then writes all four flags. -/
theorem execWrf_next (s t : State) (a : RegIdx) (h : execWrf a s = .next t) :
    (s.inHandler = true → (s.x a).getLsbD 2 = false ∧ (s.x a).getLsbD 3 = false) ∧
    t = (s.setFlags (Flags.ofByte (s.x a))).advance := by
  have hb : s.inHandler = true → (s.x a).getLsbD 2 = false ∧ (s.x a).getLsbD 3 = false := by
    intro hh
    by_contra hn
    have hset : (s.x a).getLsbD 2 = true ∨ (s.x a).getLsbD 3 = true := by
      rwa [← Bool.or_eq_true, ← Bool.not_eq_false, Bool.or_eq_false_iff]
    cases (execWrf_refused a s hh hset).symm.trans h
  cases (execWrf_allowed a s hb).symm.trans h
  exact ⟨hb, rfl⟩

/-- A branch that goes on changes PC alone. -/
theorem branchIf_next (cond : Bool) (off : BitVec Config.branchImmBits) (s t : State) (h : branchIf cond off s = .next t) :
    t = s.setPc t.pc := by
  cases cond with
  | true => cases (branchIf_true off s).symm.trans h; rfl
  | false => cases (branchIf_false off s).symm.trans h; rfl

/-- The effects an instruction can have. -/
inductive ExecEffect (s : State) : Instr → State → Prop
  /-- The rule's destinations, C and Z. -/
  | data {i : Instr} {t : State} (h : ArithmeticFrame (destinations i) s t) : ExecEffect s i t
  /-- GETPC with one register in both slots draws a free value (log entry 5). -/
  | getpcSame (a : RegIdx) (v : Byte) : ExecEffect s (.getpc a a) (s.setX a v).drew.advance
  /-- PC alone. -/
  | jump {i : Instr} (hi : transfersControl i = true) (p : CodeAddr) : ExecEffect s i (s.setPc p)
  | reti : ExecEffect s .reti (returnFromInterrupt s)
  | ldioa (v : Byte) : ExecEffect s (.ldioa v) (s.setIoaddr v).advance
  | stioa (a : RegIdx) : ExecEffect s (.stioa a) (s.setIoaddr (s.x a)).advance
  | st (src : RegIdx) (base : BitVec Config.ldstBaseBits) (idx : RegIdx) (a : Nat)
      (ha : dataAddress (effectiveAddress s base idx) = some a) :
      ExecEffect s (.st src base idx) (s.ramWrite a (s.x src)).advance
  | out (a : RegIdx) (io : IoRegs) (draws : Nat) (uart spi : List Byte) :
      ExecEffect s (.out a)
        { s with io := io, draws := draws, uartHanded := uart, spiHanded := spi, pc := s.pc + 1 }
  | inp (a : RegIdx) (io : IoRegs) (draws : Nat) (v : Byte) :
      ExecEffect s (.inp a) (({ s with io := io, draws := draws } : State).setX a v).advance
  | wait : ExecEffect s .wait { s.advance with waiting := true }
  | wrf (a : RegIdx) (h : s.inHandler = true → (s.x a).getLsbD 2 = false ∧ (s.x a).getLsbD 3 = false) :
      ExecEffect s (.wrf a) (s.setFlags (Flags.ofByte (s.x a))).advance

theorem ExecEffect.branch {i : Instr} {s t : State} {cond : Bool} {off : BitVec Config.branchImmBits}
    (hi : transfersControl i = true) (h : branchIf cond off s = .next t) : ExecEffect s i t := by
  rw [branchIf_next cond off s t h]
  exact .jump hi t.pc

theorem ExecEffect.registers {i : Instr} {s t : State} (h : RegisterFrame (destinations i) s t) : ExecEffect s i t :=
  .data (arithmeticFrame_of_registerFrame h)

/-- An instruction that goes on has one of these effects. -/
theorem exec_effect {i : Instr} {s t : State} (h : exec i s = .next t) : ExecEffect s i t := by
  cases i with
  | add a _ | adc a _ | sub a _ | sbc a _ | and a _ | or a _ | xor a _ | not a _ | addi a _ | adci a _ | subi a _ | sbci a _
  | lsr a | rrc a | lsl a | rlc a | ror a | rol a =>
    cases h
    exact .data (arithmeticFrame_writeBack s a _ rfl rfl)
  | cmp _ _ | cmpi _ =>
    cases h
    exact .data (arithmeticFrame_writeFlags s _ rfl rfl)
  | ldi d imm =>
    cases h
    exact .registers (registerFrame_setX s d imm)
  | rdf a =>
    cases h
    exact .registers (registerFrame_setX s a s.flags.toByte)
  | mul _ | lpm =>
    cases h
    exact .registers (registerFrame_setX_setX s 1 2 _ _)
  | getpc a b =>
    by_cases hab : a ≠ b ∨ a = 0
    · cases (execGetpc_pair a b s hab).symm.trans h
      exact .registers (registerFrame_setX_setX s a b _ _)
    · obtain ⟨rfl, ha⟩ : a = b ∧ a ≠ 0 := by simpa using hab
      cases (execGetpc_same a s ha).symm.trans h
      exact .getpcSame a _
  | ld d base idx =>
    obtain ⟨_, v, _, _, rfl⟩ := execLd_next s t d base idx h
    exact .registers (registerFrame_setX s d v)
  | st src base idx =>
    obtain ⟨a, ha, rfl⟩ := execSt_next s t src base idx h
    exact .st src base idx a ha
  | jmpr _ _ | jmp _ =>
    cases h
    exact .jump rfl _
  | bcc _ | bcs _ | bnz _ | bz _ => exact .branch rfl h
  | ldioa v =>
    cases h
    exact .ldioa v
  | stioa a =>
    cases h
    exact .stioa a
  | out a =>
    rw [execOut_next s t a h]
    exact .out a t.io t.draws t.uartHanded t.spiHanded
  | inp a =>
    obtain ⟨u, v, _, hu, rfl⟩ := execIn_next s t a h
    rw [hu]
    exact .inp a u.io u.draws v
  | wait =>
    cases h
    exact .wait
  | reti =>
    cases h
    exact .reti
  | wrf a =>
    obtain ⟨hb, rfl⟩ := execWrf_next s t a h
    exact .wrf a hb

/-! What each effect keeps. -/

/-- No instruction touches the backup registers, the latches, the flash, the pins, the records of bytes sent and the agenda. -/
theorem ExecEffect.frame {i : Instr} {s t : State} (h : ExecEffect s i t) :
    t = { s with regs := t.regs, pc := t.pc, ioaddr := t.ioaddr, flags := t.flags, waiting := t.waiting, ram := t.ram, io := t.io,
                 inHandler := t.inHandler, uartHanded := t.uartHanded, spiHanded := t.spiHanded, draws := t.draws } := by
  cases h with
  | data hf =>
    obtain ⟨honly, _⟩ := hf
    rw [honly]
  | getpcSame a v => rw [State.setX_eq]; rfl
  | inp a io draws v => rw [State.setX_eq]; rfl
  | _ => rfl

/-- Registers outside the destinations are kept. -/
theorem ExecEffect.otherRegsKept {i : Instr} {s t : State} (h : ExecEffect s i t) : OtherRegsKept (destinations i) s t := by
  cases h with
  | data hf =>
    obtain ⟨_, hregs, _⟩ := hf
    exact hregs
  | getpcSame a v => exact fun r hr => otherRegsKept_setX s a v r (by simpa [destinations] using hr)
  | inp a io draws v => exact fun r hr => otherRegsKept_setX _ a v r hr
  | _ => exact fun _ _ => rfl

/-- PC moves to the next word where control is not transferred. -/
theorem ExecEffect.pcNext {i : Instr} {s t : State} (h : ExecEffect s i t) (hi : transfersControl i = false) : PcNext s t := by
  cases h with
  | data hf =>
    obtain ⟨_, _, _, hpc, _⟩ := hf
    exact hpc
  | jump ht p => rw [ht] at hi; cases hi
  | reti => cases hi
  | getpcSame a v => exact pcNext_advance s _ (s.setX_pc a v)
  | inp a io draws v => exact pcNext_advance s _ (State.setX_pc _ a v)
  | _ => exact advance_pc_toNat s

/-- RAM is kept but by ST. -/
theorem ExecEffect.ramKept {i : Instr} {s t : State} (h : ExecEffect s i t) (hi : ∀ src base idx, i ≠ .st src base idx) :
    RamKept s t := by
  cases h with
  | data hf =>
    obtain ⟨_, _, hram, _⟩ := hf
    exact hram
  | st src base idx a ha => exact absurd rfl (hi src base idx)
  | getpcSame a v => exact State.setX_ramRead s a v
  | inp a io draws v => exact State.setX_ramRead _ a v
  | _ => exact fun _ => rfl

/-- The IO registers are kept but by IN and OUT. -/
theorem ExecEffect.io {i : Instr} {s t : State} (h : ExecEffect s i t) (hout : ∀ a, i ≠ .out a) (hin : ∀ a, i ≠ .inp a) :
    t.io = s.io := by
  cases h with
  | data hf =>
    obtain ⟨honly, _⟩ := hf
    rw [honly]
  | out a => exact absurd rfl (hout a)
  | inp a => exact absurd rfl (hin a)
  | getpcSame a v => exact s.setX_io a v
  | _ => rfl

/-- IOADDR is kept but by LDIOA, STIOA and RETI. -/
theorem ExecEffect.ioaddr {i : Instr} {s t : State} (h : ExecEffect s i t) (hldioa : ∀ v, i ≠ .ldioa v)
    (hstioa : ∀ a, i ≠ .stioa a) (hreti : i ≠ .reti) : t.ioaddr = s.ioaddr := by
  cases h with
  | data hf =>
    obtain ⟨honly, _⟩ := hf
    rw [honly]
  | ldioa v => exact absurd rfl (hldioa v)
  | stioa a => exact absurd rfl (hstioa a)
  | reti => exact absurd rfl hreti
  | getpcSame a v => exact s.setX_ioaddr a v
  | inp a io draws v => exact State.setX_ioaddr _ a v
  | _ => rfl

/-- The records of bytes handed to the serial ports are kept but by OUT. -/
theorem ExecEffect.handed {i : Instr} {s t : State} (h : ExecEffect s i t) (hout : ∀ a, i ≠ .out a) :
    t.uartHanded = s.uartHanded ∧ t.spiHanded = s.spiHanded := by
  cases h with
  | data hf =>
    obtain ⟨honly, _⟩ := hf
    rw [honly]
    exact ⟨rfl, rfl⟩
  | out a => exact absurd rfl (hout a)
  | getpcSame a v => exact ⟨s.setX_uartHanded a v, s.setX_spiHanded a v⟩
  | inp a io draws v => exact ⟨State.setX_uartHanded _ a v, State.setX_spiHanded _ a v⟩
  | _ => exact ⟨rfl, rfl⟩

/-- Settles O55: the instruction's effect, by the lemma for each part of the state. -/
theorem instructionFrames : Obligations.InstructionFrames := by
  unfold Obligations.InstructionFrames
  intro i s t h
  have he := exec_effect h
  refine ⟨he.otherRegsKept, he.pcNext, he.ramKept, he.io, he.ioaddr, ?_⟩
  rw [he.frame]
  exact ⟨rfl, rfl, rfl, rfl, rfl, rfl, rfl, rfl, he.handed⟩

end Sys2Proof.Machine
end

section
/-! Instructions that write registers or FLAGS: LDI, GETPC, RDF, WRF. -/

namespace Sys2Proof.Machine

open Sys2Proof.Claims

/-- Settles O8: a register write and an advance. -/
theorem ldiLoadsImmediate : Obligations.LdiLoadsImmediate := by
  intro s d imm
  refine ⟨_, rfl, fun hd => ?_, registerFrame_setX s d imm⟩
  rw [State.advance_x, State.setX_x_same s d imm hd]

/-- Settles O29: the FLAGS byte as a number is `Flags.toByte_toNat`. -/
theorem rdfReadsFlags : Obligations.RdfReadsFlags := by
  intro s a
  refine ⟨_, rfl, registerFrame_setX s a s.flags.toByte, fun ha => ?_⟩
  rw [State.advance_x, State.setX_x_same s a _ ha, Flags.toByte_toNat]

/-- The return address of GETPC as a number (R132). -/
theorem returnAddress_toNat (pc : CodeAddr) : ((pc + 2).setWidth 16 : Word).toNat = (pc.toNat + 2) % 16384 := by
  rw [pc_setWidth_toNat, BitVec.toNat_add]
  rfl

/-- Settles O17: with two registers neither write hides the other; with r0 twice both are discarded. -/
theorem getpcStoresReturnAddress : Obligations.GetpcStoresReturnAddress := by
  intro s a b hab
  refine ⟨_, execGetpc_pair a b s hab, fun ha => ?_, fun hb => ?_, registerFrame_setX_setX s a b _ _⟩
  · have hne : a ≠ b := hab.resolve_right ha
    rw [State.advance_x, State.setX_x_ne _ b a _ hne, State.setX_x_same s a _ ha, lowByte_toNat, returnAddress_toNat]
  · rw [State.advance_x, State.setX_x_same _ b _ hb, highByte_toNat, returnAddress_toNat]

/-- Settles O30: the two ways WRF can go, `execWrf_allowed` and `execWrf_refused`. -/
theorem wrfWritesFlags : Obligations.WrfWritesFlags := by
  intro s a
  refine ⟨fun hok => ?_, execWrf_refused a s⟩
  have hclear : s.inHandler = true → (s.x a).getLsbD 2 = false ∧ (s.x a).getLsbD 3 = false := by
    simpa only [not_and, not_or, Bool.not_eq_true] using hok
  exact ⟨_, execWrf_allowed a s hclear, rfl, rfl, rfl, rfl, rfl, advance_pc_toNat s, fun _ => rfl⟩

end Sys2Proof.Machine
end

section
/-! The CPU's move from the state that has taken its turn. -/

namespace Sys2Proof.Machine

open Sys2Proof.Claims

/-- The boundary rule does not look at whose turn it is. -/
@[simp] theorem nextAction_takeTurn (s : State) : nextAction s.takeTurn = nextAction s := rfl

/-- An idle CPU answers the state it moves from (log entry 29). -/
theorem cpuStep_of_idle (s : State) (h : nextAction s = .idle) : cpuStep s = .next s := by
  simp only [cpuStep, h]

/-- Where the CPU moves, the step is the CPU's. -/
theorem step_of_cpuMoves (s s0 : State) (h : CpuMoves s s0) : step s = cpuStep s0 := by
  obtain ⟨hnil | ⟨rest, hcpu⟩, rfl⟩ := h
  · rw [step_of_no_turn s hnil, takeTurn_of_nil s hnil]
  · exact step_of_cpu_turn s rest hcpu

/-- An idle CPU's move only takes its turn off the agenda. -/
theorem step_of_cpuMoves_idle (s s0 : State) (h : CpuMoves s s0) (ha : nextAction s = .idle) : step s = .next s0 := by
  rw [step_of_cpuMoves s s0 h]
  obtain ⟨_, rfl⟩ := h
  exact cpuStep_of_idle _ ((nextAction_takeTurn s).trans ha)

/-- A fetching CPU's move runs the instruction at PC. -/
theorem step_of_cpuMoves_fetch (s s0 : State) (i : Instr) (h : CpuMoves s s0) (ha : nextAction s = .fetch)
    (hd : decode s.fetchWord = .ok i) : step s = exec i s0 := by
  rw [step_of_cpuMoves s s0 h]
  obtain ⟨_, rfl⟩ := h
  exact cpuStep_of_fetch _ i ((nextAction_takeTurn s).trans ha) hd

/-- A request that is not ready is one the boundary rule does not take. -/
theorem not_timerReady_iff (s : State) : ¬TimerReady s ↔ (s.pendT && s.flags.tie) = false := by
  rw [TimerReady, ← Bool.and_eq_true, Bool.not_eq_true]

theorem not_externalReady_iff (s : State) : ¬ExternalReady s ↔ (s.pendE && s.flags.ie) = false := by
  rw [ExternalReady, ← Bool.and_eq_true, Bool.not_eq_true]

/-- An interrupt is entered only where a request is ready. -/
theorem ready_of_nextAction_enter (s : State) (src : IrqSource) (h : nextAction s = .enter src) :
    TimerReady s ∨ ExternalReady s := by
  cases src with
  | timer =>
    obtain ⟨_, _, ht⟩ := (nextAction_timer_iff s).mp h
    exact .inl (by rwa [TimerReady, ← Bool.and_eq_true])
  | external =>
    obtain ⟨_, _, _, he⟩ := (nextAction_external_iff s).mp h
    exact .inr (by rwa [ExternalReady, ← Bool.and_eq_true])

end Sys2Proof.Machine
end

section
/-! WAITING: the halted CPU, for one step and for any number (R33, R170). -/

namespace Sys2Proof.Machine

open Sys2Proof.Claims

/-- Settles O42: the halted CPU is idle by `nextAction_idle_of_waiting`. -/
theorem waitingBit : Obligations.WaitingBit := by
  refine ⟨fun s => ⟨_, rfl, rfl, rfl, advance_pc_toNat s⟩, fun s src => interruptEntry_waiting src s, fun _ _ => rfl, ?_⟩
  intro s s0 hmove hwait ht he
  exact step_of_cpuMoves_idle s s0 hmove
    (nextAction_idle_of_waiting s hwait ((not_timerReady_iff s).mp ht) ((not_externalReady_iff s).mp he))

/-- The CPU state that a halted CPU holds still. -/
structure CpuStill (s t : State) : Prop where
  waiting : t.waiting = s.waiting
  pc : t.pc = s.pc
  regs : t.regs = s.regs
  flags : t.flags = s.flags
  ioaddr : t.ioaddr = s.ioaddr
  ram : t.ram = s.ram

theorem CpuStill.trans {s t u : State} (h : CpuStill s t) (k : CpuStill t u) : CpuStill s u :=
  ⟨k.waiting.trans h.waiting, k.pc.trans h.pc, k.regs.trans h.regs, k.flags.trans h.flags, k.ioaddr.trans h.ioaddr,
    k.ram.trans h.ram⟩

/-- Taking a turn brings no reset nearer than the agenda has it. -/
theorem noResetAhead_takeTurn (s : State) (h : NoResetAhead s) : NoResetAhead s.takeTurn :=
  fun u hu => h u (reset_mem_takeTurn s u hu)

/-- An event other than a reset holds the CPU still and leaves the agenda alone. -/
theorem applyEvent_cpuStill (e : Event) (s : State) (h : ∀ u, e ≠ .assertRSTD u) :
    CpuStill s (applyEvent e s) ∧ (applyEvent e s).agenda = s.agenda := by
  rw [applyEvent_frame e s h]
  exact ⟨⟨rfl, rfl, rfl, rfl, rfl, rfl⟩, rfl⟩

/-- One step from a halted state with both enables clear and no reset ahead: the CPU stays still, and no reset is ahead after it. -/
theorem step_of_halted (s : State) (hwait : s.waiting = true) (hie : s.flags.ie = false) (htie : s.flags.tie = false)
    (hreset : NoResetAhead s) : ∃ t, step s = .next t ∧ CpuStill s t ∧ NoResetAhead t := by
  have hidle : nextAction s = .idle :=
    nextAction_idle_of_waiting s hwait (by rw [htie, Bool.and_false]) (by rw [hie, Bool.and_false])
  have hstill : CpuStill s s.takeTurn := ⟨rfl, rfl, rfl, rfl, rfl, rfl⟩
  have hahead := noResetAhead_takeTurn s hreset
  have hcpu (hmove : s.turnsAhead = [] ∨ ∃ rest, s.turnsAhead = .cpu :: rest) :
      ∃ t, step s = .next t ∧ CpuStill s t ∧ NoResetAhead t :=
    ⟨s.takeTurn, step_of_cpuMoves_idle s _ ⟨hmove, rfl⟩ hidle, hstill, hahead⟩
  match hturn : s.turnsAhead with
  | [] => exact hcpu (.inl hturn)
  | .cpu :: rest => exact hcpu (.inr ⟨rest, hturn⟩)
  | .event e :: rest =>
    have he : ∀ u, e ≠ .assertRSTD u := by
      rintro u rfl
      exact hreset u (by rw [turnsAhead_reset s u rest hturn]; exact List.mem_cons_self)
    obtain ⟨hevent, hagenda⟩ := applyEvent_cpuStill e s.takeTurn he
    refine ⟨_, step_of_event s e rest hturn, hstill.trans hevent, ?_⟩
    rwa [NoResetAhead, hagenda]

/-- A run of any length from such a state goes on and holds the CPU still. -/
theorem run_of_halted (n : Nat) (s : State) (hwait : s.waiting = true) (hie : s.flags.ie = false) (htie : s.flags.tie = false)
    (hreset : NoResetAhead s) : ∃ t, Host.Core.run Sys2Proof.core n s = .next t ∧ CpuStill s t := by
  induction n generalizing s with
  | zero => exact ⟨s, run_zero s, ⟨rfl, rfl, rfl, rfl, rfl, rfl⟩⟩
  | succ n ih =>
    obtain ⟨u, hstep, hu, hahead⟩ := step_of_halted s hwait hie htie hreset
    obtain ⟨t, hrun, ht⟩ :=
      ih u (hu.waiting.trans hwait) (by rw [hu.flags, hie]) (by rw [hu.flags, htie]) hahead
    exact ⟨t, (run_succ n s u hstep).trans hrun, hu.trans ht⟩

/-- Settles O43, by induction on the number of steps (`run_of_halted`). -/
theorem waitWithEnablesClearHaltsForever : Obligations.WaitWithEnablesClearHaltsForever := by
  intro n s hwait hie htie hreset
  obtain ⟨t, hrun, h⟩ := run_of_halted n s hwait hie htie hreset
  refine ⟨t, hrun, h.waiting.trans hwait, h.pc, h.regs, h.flags, h.ioaddr, fun a => ?_⟩
  simp only [State.ramRead, h.ram]

end Sys2Proof.Machine
end

section
/-! Events and reset: the INT latch, the first instruction after reset, what writes the backup registers. -/

namespace Sys2Proof.Machine

open Sys2Proof.Claims

/-- Settles O49: the latch takes an event exactly while its enable is 1 (`latches_eq`). -/
theorem intNegativeEdgeLatches : Obligations.IntNegativeEdgeLatches := by
  intro s level hr
  simp only [applyEvent, hr, if_true, driveInt, latches_eq]

/-- Settles O59: no memory byte is listed and no handler runs. -/
theorem resetMeetsInvariant : Obligations.ResetMeetsInvariant :=
  ⟨Memory.wf_nil _, Memory.wf_nil _, nofun⟩

/-- Only a reset drives RSTD low. -/
theorem applyEvent_rstd (e : Event) (s : State) (h : ∀ u, e ≠ .assertRSTD u) (hr : s.pins.rstd = true) :
    (applyEvent e s).pins.rstd = true := by
  cases e with
  | timerClock late =>
    simp only [applyEvent, whenRunning, hr, if_true]
    rw [timerClock_frame, hr]
  | uartSent =>
    simp only [applyEvent, whenRunning, hr, if_true, uartSent]
    split <;> exact hr
  | spiDone b =>
    simp only [applyEvent, whenRunning, hr, if_true, spiDone]
    split <;> exact hr
  | uartReceived b =>
    simp only [applyEvent, whenRunning, hr, if_true]
    exact hr
  | driveINT level =>
    simp only [applyEvent, hr, if_true]
    exact hr
  | assertRSTD u => exact absurd rfl (h u)
  | releaseRSTD => rfl
  | drivePA v | drivePB v | driveRXD level | driveSDI level | drivePAUSE level => exact hr

/-- The CPU has run nothing since a reset from a state with this flash, and RSTD is high again. -/
structure FreshFromReset (flash : Memory) (r : State) : Prop where
  pc : r.pc = 0
  ioaddr : r.ioaddr = 0
  flags : r.flags = Flags.clear
  waiting : r.waiting = false
  flash : r.flash = flash
  rstd : r.pins.rstd = true

theorem freshFromReset_release (s : State) (u : Unspecified) :
    FreshFromReset s.flash (applyEvent .releaseRSTD (applyEvent (.assertRSTD u) s)) :=
  ⟨rfl, rfl, rfl, rfl, rfl, rfl⟩

theorem FreshFromReset.event {m : Memory} {r : State} (h : FreshFromReset m r) (e : Event) (he : ∀ u, e ≠ .assertRSTD u) :
    FreshFromReset m (applyEvent e r) := by
  have hr := applyEvent_rstd e r he h.rstd
  rw [applyEvent_frame e r he]
  exact ⟨h.pc, h.ioaddr, h.flags, h.waiting, h.flash, hr⟩

theorem FreshFromReset.events {m : Memory} (es : List Event) {r : State} (h : FreshFromReset m r)
    (hes : ∀ u, Event.assertRSTD u ∉ es) : FreshFromReset m (es.foldl (fun x e => applyEvent e x) r) := by
  induction es generalizing r with
  | nil => exact h
  | cons e es ih =>
    exact ih (h.event e fun u he => hes u (he ▸ List.mem_cons_self)) fun u hu => hes u (List.mem_cons_of_mem e hu)

/-- With PAUSE low such a CPU fetches, whatever is latched: both enables are clear. -/
theorem FreshFromReset.fetches {m : Memory} {r : State} (h : FreshFromReset m r) (hp : r.pins.pause = false) :
    nextAction r = .fetch :=
  (nextAction_fetch_iff r).mpr
    ⟨h.rstd, hp, by rw [h.flags, Flags.clear, Bool.and_false], by rw [h.flags, Flags.clear, Bool.and_false], h.waiting⟩

/-- It fetches from ROM word address 0. -/
theorem FreshFromReset.fetchWord {s r : State} (h : FreshFromReset s.flash r) : r.fetchWord = s.romRead 0 := by
  simp only [State.fetchWord, State.romRead, State.flashRead, h.flash, h.pc]
  rfl

/-- Settles O54, by induction on the events (`FreshFromReset.events`). -/
theorem firstInstructionAfterResetIsWordZero : Obligations.FirstInstructionAfterResetIsWordZero := by
  intro s u es i hes hdec
  have h := (freshFromReset_release s u).events es hes
  refine ⟨_, rfl, h.pc, h.ioaddr, h.flags, fun hp r0 hmove => ?_⟩
  exact step_of_cpuMoves_fetch _ r0 i hmove (h.fetches hp) (by rw [h.fetchWord, hdec])

/-- Settles O57: of the ways a step can go (`step_cases`), only an entry and a reset write the backup registers. -/
theorem backupWrittenOnlyByEntry : Obligations.BackupWrittenOnlyByEntry := by
  intro s t h
  rcases step_cases s t h with ⟨e, rest, hturn, rfl⟩ | ⟨_, rfl⟩ | ⟨src, hsrc, rfl⟩ | ⟨_, i, _, hexec⟩
  · by_cases he : ∃ u, e = .assertRSTD u
    · obtain ⟨u, rfl⟩ := he
      exact .inr (.inr ⟨u, rest, turnsAhead_reset s u rest hturn⟩)
    · left
      rw [applyEvent_frame e _ fun u hu => he ⟨u, hu⟩, State.takeTurn_bak]
  · exact .inl rfl
  · exact .inr (.inl ⟨ready_of_nextAction_enter s src hsrc, rfl⟩)
  · left
    rw [(exec_effect hexec).frame, State.takeTurn_bak]

end Sys2Proof.Machine
end

section
/-! Every step keeps the invariant, and no step touches program ROM (R50, R54, R56, R237). -/

namespace Sys2Proof.Machine

open Sys2Proof.Claims

/-! Program ROM. -/

/-- No event touches the flash, a reset included (R262). -/
theorem applyEvent_flash (e : Event) (s : State) : (applyEvent e s).flash = s.flash := by
  by_cases he : ∃ u, e = .assertRSTD u
  · obtain ⟨u, rfl⟩ := he
    rfl
  · rw [applyEvent_frame e s fun u hu => he ⟨u, hu⟩]

/-- Settles O56: of the ways a step can go (`step_cases`), none writes the flash. -/
theorem noStepChangesProgramRom : Obligations.NoStepChangesProgramRom := by
  intro s t h
  rcases step_cases s t h with ⟨e, rest, _, rfl⟩ | ⟨_, rfl⟩ | ⟨src, _, rfl⟩ | ⟨_, i, _, hexec⟩
  · exact applyEvent_flash e s.takeTurn
  · rfl
  · rfl
  · rw [(exec_effect hexec).frame, State.takeTurn_flash]

/-! The RAM in canonical form. -/

/-- An event leaves the RAM as it is or, a reset, empties it. -/
theorem applyEvent_ram (e : Event) (s : State) : (applyEvent e s).ram = s.ram ∨ (applyEvent e s).ram = [] := by
  by_cases he : ∃ u, e = .assertRSTD u
  · obtain ⟨u, rfl⟩ := he
    exact .inr rfl
  · left
    rw [applyEvent_frame e s fun u hu => he ⟨u, hu⟩]

/-- An instruction keeps the RAM in canonical form: the one write, ST's, is at a data address of the machine. -/
theorem ExecEffect.ramWf {i : Instr} {s t : State} (h : ExecEffect s i t) (hs : s.ram.wf Config.dmemBytes = true) :
    t.ram.wf Config.dmemBytes = true := by
  cases h with
  | data hf =>
    obtain ⟨honly, _⟩ := hf
    rwa [honly]
  | st src base idx a ha => exact Memory.wf_write s.ram _ a _ (dataAddress_lt _ a ha) hs
  | getpcSame a v => simpa using hs
  | inp a io draws v => simpa using hs
  | _ => exact hs

/-! The enables inside a handler. -/

/-- Where the ghost bit and the enables are the same, so is the masking. -/
theorem handlerMasked_congr {s t : State} (hs : s.handlerMasked) (hin : t.inHandler = s.inHandler)
    (hie : t.flags.ie = s.flags.ie) (htie : t.flags.tie = s.flags.tie) : t.handlerMasked := by
  rwa [State.handlerMasked, hin, hie, htie]

/-- An event leaves the enables and the ghost bit alone; a reset clears them. -/
theorem applyEvent_handlerMasked (e : Event) (s : State) (hs : s.handlerMasked) : (applyEvent e s).handlerMasked := by
  by_cases he : ∃ u, e = .assertRSTD u
  · obtain ⟨u, rfl⟩ := he
    exact fun _ => ⟨rfl, rfl⟩
  · rw [applyEvent_frame e s fun u hu => he ⟨u, hu⟩]
    exact hs

/-- An instruction keeps the enables clear inside a handler: WRF is refused where it would set one (D19), and RETI, which may set
both, leaves the handler. -/
theorem ExecEffect.handlerMasked {i : Instr} {s t : State} (h : ExecEffect s i t) (hs : s.handlerMasked) : t.handlerMasked := by
  cases h with
  | data hf =>
    obtain ⟨honly, _, _, _, hie, htie⟩ := hf
    exact handlerMasked_congr hs (by rw [honly]) hie htie
  | reti => exact fun hin => absurd hin Bool.false_ne_true
  | wrf a hclear => exact hclear
  | getpcSame a v => exact handlerMasked_congr hs (by simp) (by simp) (by simp)
  | inp a io draws v => exact handlerMasked_congr hs (by simp) (by simp) (by simp)
  | _ => exact hs

/-! The invariant. -/

theorem applyEvent_inv (e : Event) (s : State) (hs : s.Inv) : (applyEvent e s).Inv where
  ramWf := by
    rcases applyEvent_ram e s with h | h <;> rw [h]
    · exact hs.ramWf
    · exact Memory.wf_nil _
  flashWf := by rw [applyEvent_flash]; exact hs.flashWf
  masked := applyEvent_handlerMasked e s hs.masked

theorem interruptEntry_inv (src : IrqSource) (s : State) (hs : s.Inv) : (interruptEntry src s).Inv :=
  ⟨hs.ramWf, hs.flashWf, fun _ => ⟨rfl, rfl⟩⟩

theorem ExecEffect.inv {i : Instr} {s t : State} (h : ExecEffect s i t) (hs : s.Inv) : t.Inv where
  ramWf := h.ramWf hs.ramWf
  flashWf := by rw [h.frame]; exact hs.flashWf
  masked := h.handlerMasked hs.masked

/-- Settles O58, by the ways a step can go (`step_cases`). -/
theorem stepKeepsInvariant : Obligations.StepKeepsInvariant := by
  intro s t hs h
  have hturn : s.takeTurn.Inv := ⟨hs.ramWf, hs.flashWf, hs.masked⟩
  rcases step_cases s t h with ⟨e, rest, _, rfl⟩ | ⟨_, rfl⟩ | ⟨src, _, rfl⟩ | ⟨_, i, _, hexec⟩
  · exact applyEvent_inv e _ hturn
  · exact hturn
  · exact interruptEntry_inv src _ hturn
  · exact (exec_effect hexec).inv hturn

end Sys2Proof.Machine
end

section
/-! Fetch, data RAM and program ROM: the step that fetches, LD, ST, LPM (R51 to R55, R63, R150, R155, R175, R233). -/

namespace Sys2Proof.Machine

open Sys2Proof.Claims

/-- Two bytes that decode are a word that decodes. -/
theorem decode_of_decodeBytes_pair (even odd : Byte) (i : Instr) (h : decodeBytes [even, odd] = .ok (i, [])) :
    decode (wordOfBytes even odd) = .ok i := by
  rw [decodeBytes_pair] at h
  split at h
  next j hj => cases h; exact hj
  next => cases h

/-- Settles O5: the boundary rule fetches (`nextAction_fetch_iff`), from the two flash bytes at PC (`fetchWord_eq`). -/
theorem stepRunsDecodedInstruction : Obligations.StepRunsDecodedInstruction := by
  intro s s0 i hmove hrun ht he hwait hbytes
  obtain ⟨hrstd, hpause⟩ := hrun
  have hfetch : nextAction s = .fetch :=
    (nextAction_fetch_iff s).mpr ⟨hrstd, hpause, (not_timerReady_iff s).mp ht, (not_externalReady_iff s).mp he, hwait⟩
  have hdec : decode s.fetchWord = .ok i := by
    rw [fetchWord_eq]
    exact decode_of_decodeBytes_pair _ _ i hbytes
  exact step_of_cpuMoves_fetch s s0 i hmove hfetch hdec

/-! Where LD and ST go on and where they stop. -/

/-- A data address the machine accesses is the effective address, below 64 (DMEM_OOB is refuse). -/
theorem dataAddress_eq_some {ea a : Nat} (h : dataAddress ea = some a) : ea < 64 ∧ a = ea := by
  by_cases hlt : ea < 64
  · rw [dataAddress_of_lt ea hlt] at h
    exact ⟨hlt, (Option.some.inj h).symm⟩
  · rw [dataAddress_of_ge ea (Nat.not_lt.mp hlt)] at h
    cases h

theorem execLd_of_written (s : State) (d : RegIdx) (base : BitVec Config.ldstBaseBits) (idx : RegIdx) (v : Byte)
    (hlt : effectiveAddress s base idx < 64) (hv : s.ramRead (effectiveAddress s base idx) = some v) :
    execLd d base idx s = .next (s.setX d v).advance := by
  simp only [execLd, dataAddress_of_lt _ hlt, hv]

theorem execLd_of_unwritten (s : State) (d : RegIdx) (base : BitVec Config.ldstBaseBits) (idx : RegIdx)
    (hlt : effectiveAddress s base idx < 64) (hv : s.ramRead (effectiveAddress s base idx) = none) :
    execLd d base idx s = .refused .ramByteNeverWritten := by
  simp only [execLd, dataAddress_of_lt _ hlt, hv]

theorem execLd_of_ge (s : State) (d : RegIdx) (base : BitVec Config.ldstBaseBits) (idx : RegIdx)
    (hge : 64 ≤ effectiveAddress s base idx) : execLd d base idx s = .refused .dataAddressOutOfRange := by
  simp only [execLd, dataAddress_of_ge _ hge]

theorem execSt_of_lt (s : State) (src : RegIdx) (base : BitVec Config.ldstBaseBits) (idx : RegIdx)
    (hlt : effectiveAddress s base idx < 64) :
    execSt src base idx s = .next (s.ramWrite (effectiveAddress s base idx) (s.x src)).advance := by
  simp only [execSt, dataAddress_of_lt _ hlt]

theorem execSt_of_ge (s : State) (src : RegIdx) (base : BitVec Config.ldstBaseBits) (idx : RegIdx)
    (hge : 64 ≤ effectiveAddress s base idx) : execSt src base idx s = .refused .dataAddressOutOfRange := by
  simp only [execSt, dataAddress_of_ge _ hge]

/-- Settles O23: below 64, on a written byte, LD is a register write and an advance (`execLd_of_written`). -/
theorem ldLoadsRamByte : Obligations.LdLoadsRamByte := by
  intro s d base idx v hlt hv
  refine ⟨rfl, _, execLd_of_written s d base idx v hlt hv, fun hd => ?_, registerFrame_setX s d v⟩
  rw [State.advance_x, State.setX_x_same s d v hd]

/-- Settles O24: below 64 ST is a RAM write and an advance (`execSt_of_lt`), read back by the memory laws. -/
theorem stStoresRamByte : Obligations.StStoresRamByte := by
  intro s src base idx hlt
  refine ⟨rfl, _, execSt_of_lt s src base idx hlt, ?_, fun a ha => ?_, rfl, pcNext_advance s _ rfl⟩
  · rw [State.advance_ramRead, State.ramWrite_ramRead_same]
  · rw [State.advance_ramRead, State.ramWrite_ramRead_ne s _ a _ ha]

/-- Settles O25, by the lemma for each stop. -/
theorem dataAccessRefusals : Obligations.DataAccessRefusals := by
  intro s r base idx
  exact ⟨fun hge => ⟨execLd_of_ge s r base idx hge, execSt_of_ge s r base idx hge⟩, execLd_of_unwritten s r base idx⟩

/-- Settles O26: a store that goes on has written its effective address, which is the load's. -/
theorem loadAfterStoreReturnsValue : Obligations.LoadAfterStoreReturnsValue := by
  intro s t src d base base' idx idx' hst hd haddr
  obtain ⟨a, ha, ht⟩ := execSt_next s t src base idx hst
  obtain ⟨hlt, hea⟩ := dataAddress_eq_some ha
  have hsame : effectiveAddress t base' idx' = a := haddr.trans hea.symm
  have hread : t.ramRead (effectiveAddress t base' idx') = some (s.x src) := by
    rw [hsame, ht, State.advance_ramRead, State.ramWrite_ramRead_same]
  refine ⟨_, execLd_of_written t d base' idx' (s.x src) (by rwa [hsame, hea]) hread, ?_⟩
  rw [State.advance_x, State.setX_x_same t d _ hd]

/-- Settles O28: `execLpm_eq` has the address from the old r3 and r2, and the write of r2 leaves r1 alone. -/
theorem lpmReadsProgramWord : Obligations.LpmReadsProgramWord := by
  intro s
  refine ⟨_, execLpm_eq s, ?_, ?_, registerFrame_setX_setX s 1 2 _ _⟩
  · rw [State.advance_x, State.setX_x_ne _ 2 1 _ (by decide), State.setX_x_same s 1 _ (by decide)]
  · rw [State.advance_x, State.setX_x_same _ 2 _ (by decide)]

end Sys2Proof.Machine
end

section
/-! IN and OUT at the read-write storage addresses of the IO map (R57, R167, R168, R201). -/

namespace Sys2Proof.Machine

open Sys2Proof.Claims

/-- The IO address of each register of the map (R201). -/
def IoAddr.number : IoAddr → Nat
  | .ddra => 0x00
  | .porta => 0x01
  | .ddrb => 0x02
  | .portb => 0x03
  | .pina => 0x04
  | .pinb => 0x05
  | .udivLow => 0x06
  | .udivHigh => 0x07
  | .udr => 0x08
  | .stat => 0x09
  | .sdiv => 0x0A
  | .sdr => 0x0B
  | .tdiv => 0x0C
  | .capture => 0x0D
  | .tcaptLow => 0x0E
  | .tcaptHigh => 0x0F
  | .load => 0x10
  | .ttopLow => 0x11
  | .ttopHigh => 0x12
  | .pw => 0x13
  | .fdivLow => 0x14
  | .fdivHigh => 0x15

/-- Every address below 16h selects a register, the one with that number. -/
theorem ioAddr_assigned (a : Byte) (h : a.toNat < 0x16) : ∃ r, ioAddr a = some r ∧ a.toNat = r.number := by
  change ∃ r, ioAddrLowFirst a = some r ∧ a.toNat = r.number
  unfold ioAddrLowFirst
  split
  case h_23 =>
    -- each address below 16h is excluded as an implication, which `omega` reads as a negation only
    simp only [imp_false] at *
    omega
  all_goals exact ⟨_, rfl, by assumption⟩

/-- No storage byte lies outside the map. -/
theorem storageByte_unassigned (r : IoRegs) (n : Nat) (h : 0x16 ≤ n) : storageByte r n = none := by
  unfold storageByte
  split
  case h_16 => rfl
  all_goals exact absurd h (by decide)

/-- A storage address selects the register with that number. -/
theorem ioAddr_of_storage (io : IoRegs) (a : Byte) (h : (storageByte io a.toNat).isSome = true) :
    ∃ r, ioAddr a = some r ∧ a.toNat = r.number := by
  apply ioAddr_assigned
  by_contra hge
  rw [storageByte_unassigned io _ (Nat.not_lt.mp hge)] at h
  cases h

/-! Reads. -/

/-- A read at a storage address answers the byte stored there and has no side effect. -/
theorem ioReadAt_storage (r : IoAddr) (s : State) (v : Byte) (h : storageByte s.io r.number = some v) :
    ioReadAt r s = .ok (v, s) := by
  cases r <;> cases h <;> rfl

/-- Settles O32: `ioReadAt_storage`, then a register write and an advance. -/
theorem inReadsMappedStorage : Obligations.InReadsMappedStorage := by
  intro s d v h
  obtain ⟨r, hr, hn⟩ := ioAddr_of_storage s.io s.ioaddr (by rw [h, Option.isSome_some])
  rw [hn] at h
  refine ⟨_, execIn_of_ok s s d r v hr (ioReadAt_storage r s v h), fun hd => ?_, registerFrame_setX s d v⟩
  rw [State.advance_x, State.setX_x_same s d v hd]

/-! Writes: first the bits of a 16-bit register of which one half is written, in the spelling of `storageByte`. -/

@[simp] theorem withLow_low_bits (w : Word) (v : Byte) : (withLow w v).extractLsb' 0 8 = v := lowByte_withLow w v
@[simp] theorem withLow_high_bits (w : Word) (v : Byte) : (withLow w v).extractLsb' 8 8 = w.extractLsb' 8 8 := highByte_withLow w v
@[simp] theorem withHigh_low_bits (w : Word) (v : Byte) : (withHigh w v).extractLsb' 0 8 = w.extractLsb' 0 8 := lowByte_withHigh w v
@[simp] theorem withHigh_high_bits (w : Word) (v : Byte) : (withHigh w v).extractLsb' 8 8 = v := highByte_withHigh w v

/-- What a write of `v` at the storage address `n` does. -/
structure StorageWritten (n : Nat) (v : Byte) (s t : State) : Prop where
  written : storageByte t.io n = some v
  others : ∀ k, k ≠ n → storageByte t.io k = storageByte s.io k
  devices : DevicesKept s t
  frame : t = { s with io := t.io, draws := t.draws }
  prescale : n ≠ 0x0C → t.io.prescale = s.io.prescale

/-- A write at a storage address goes through. The bytes at the other addresses are other registers or the other half of this one. -/
theorem ioWriteAt_storage (r : IoAddr) (v : Byte) (s : State) (h : (storageByte s.io r.number).isSome = true) :
    ∃ t, ioWriteAt r v s = .ok t ∧ StorageWritten r.number v s t := by
  cases r with
  | pina | pinb | udr | stat | sdr | capture | load => cases h
  | tdiv =>
    refine ⟨_, rfl, rfl, fun k hk => ?_, ⟨rfl, rfl, rfl, rfl, rfl, rfl, rfl, rfl⟩, rfl, fun hn => absurd rfl hn⟩
    unfold storageByte
    split <;> simp [IoAddr.number] at hk ⊢
  | ddra | porta | ddrb | portb | sdiv | pw =>
    refine ⟨_, rfl, rfl, fun k hk => ?_, ⟨rfl, rfl, rfl, rfl, rfl, rfl, rfl, rfl⟩, rfl, fun _ => rfl⟩
    unfold storageByte
    split <;> simp [IoAddr.number] at hk ⊢
  | udivLow | udivHigh | tcaptLow | tcaptHigh | ttopLow | ttopHigh | fdivLow | fdivHigh =>
    refine ⟨_, rfl, ?_, fun k hk => ?_, ⟨rfl, rfl, rfl, rfl, rfl, rfl, rfl, rfl⟩, rfl, fun _ => rfl⟩
    · simp [storageByte, IoAddr.number]
    · unfold storageByte
      split <;> simp [IoAddr.number] at hk ⊢

/-- Settles O31: `ioWriteAt_storage`, then an advance. -/
theorem outWritesMappedStorage : Obligations.OutWritesMappedStorage := by
  intro s a h
  obtain ⟨r, hr, hn⟩ := ioAddr_of_storage s.io s.ioaddr h
  rw [hn] at h ⊢
  obtain ⟨t, ht, hw⟩ := ioWriteAt_storage r (s.x a) s h
  refine ⟨t.advance, execOut_of_ok s t a r hr ht, hw.written, hw.others, hw.devices, ?_, ?_, ?_, hw.prescale⟩
  · rw [OnlyIoPc, hw.frame]; rfl
  · exact pcNext_advance s t (by rw [hw.frame])
  · rw [hw.frame]; exact fun _ => rfl

end Sys2Proof.Machine
end

section
/-! The decoder and the encoder, format by format: which format a word's top bits select, and each format's fields read back (R82 to
R93). -/

namespace Sys2Proof

open Machine.Params (layout)

/-! The format a word's top bits select (R90). -/

/-- w[15:14] as a number, in terms of w[15:12]. -/
theorem twoBitSelector_eq_iff (w : Word) (p : BitVec 2) : w.extractLsb' 14 2 = p ↔ w.toNat / 4096 / 4 = p.toNat := by
  rw [← BitVec.toNat_inj, field_toNat]
  omega

/-- w[15:12] as a number. -/
theorem fourBitSelector_eq_iff (w : Word) (p : BitVec 4) : w.extractLsb' 12 4 = p ↔ w.toNat / 4096 = p.toNat := by
  rw [← BitVec.toNat_inj, field_toNat]
  omega

theorem decode_jump_format (w : Word) (h : w.toNat / 4096 / 4 = 3) : decode w = .ok (.jmp (w.extractLsb' 0 14)) := by
  simp [decode_eq, twoBitSelector_eq_iff, h]

theorem decode_store_format (w : Word) (h : w.toNat / 4096 / 4 = 2) :
    decode w = .ok (.st (regOfBits (w.extractLsb' 4 4)) (w.extractLsb' 8 6) (regOfBits (w.extractLsb' 0 4))) := by
  simp [decode_eq, twoBitSelector_eq_iff, h]

theorem decode_load_format (w : Word) (h : w.toNat / 4096 / 4 = 1) :
    decode w = .ok (.ld (regOfBits (w.extractLsb' 4 4)) (w.extractLsb' 8 6) (regOfBits (w.extractLsb' 0 4))) := by
  simp [decode_eq, twoBitSelector_eq_iff, h]

theorem decode_immediate_format (w : Word) (h : w.toNat / 4096 = 0) :
    decode w = .ok (decodeImmediate (w.extractLsb' 8 4) (w.extractLsb' 0 8)) := by
  simp [decode_eq, twoBitSelector_eq_iff, fourBitSelector_eq_iff, h]

theorem decode_regReg_format (w : Word) (h : w.toNat / 4096 = 1) :
    decode w = .ok (decodeRegReg (w.extractLsb' 8 4) (w.extractLsb' 4 4) (w.extractLsb' 0 4)
      (decodeExt (w.extractLsb' 4 4) (w.extractLsb' 0 4))) := by
  simp [decode_eq, twoBitSelector_eq_iff, fourBitSelector_eq_iff, h]

theorem decode_branch_format (w : Word) (h : w.toNat / 4096 = 2) :
    decode w = .ok (decodeBranch (w.extractLsb' 10 2) (w.extractLsb' 0 10)) := by
  simp [decode_eq, twoBitSelector_eq_iff, fourBitSelector_eq_iff, h]

/-- The one value of w[15:12] that selects no format (R91). -/
theorem decode_reserved (w : Word) (h : w.toNat / 4096 = 3) : decode w = .error (.undefinedEncoding w) := by
  simp [decode_eq, twoBitSelector_eq_iff, fourBitSelector_eq_iff, h]

/-! Each format's word, decoded: the fields come back as they were put in. -/

theorem decode_encodeJump (addr : BitVec Config.jumpAddrBits) : decode (encodeJump layout addr) = .ok (.jmp addr) := by
  have haddr : addr.toNat < 16384 := addr.isLt
  have hn := encodeJump_toNat addr
  generalize encodeJump layout addr = w at hn ⊢
  rw [decode_jump_format w (by omega), field_eq w 0 14 addr (by omega)]

/-- Store words (R88). -/
theorem encodeStore_toNat (base : BitVec Config.ldstBaseBits) (r x : BitVec 4) :
    (encodeLoadStore layout layout.store base r x).toNat = 32768 + base.toNat * 256 + r.toNat * 16 + x.toNat :=
  encodeLoadStore_toNat layout.store base r x

/-- Load words (R88). -/
theorem encodeLoad_toNat (base : BitVec Config.ldstBaseBits) (r x : BitVec 4) :
    (encodeLoadStore layout layout.load base r x).toNat = 16384 + base.toNat * 256 + r.toNat * 16 + x.toNat :=
  encodeLoadStore_toNat layout.load base r x

theorem decode_encodeStore (base : BitVec Config.ldstBaseBits) (r x : BitVec 4) :
    decode (encodeLoadStore layout layout.store base r x) = .ok (.st (regOfBits r) base (regOfBits x)) := by
  have hbase : base.toNat < 64 := base.isLt
  have hn := encodeStore_toNat base r x
  generalize encodeLoadStore layout layout.store base r x = w at hn ⊢
  rw [decode_store_format w (by omega), field_eq w 4 4 r (by omega), field_eq w 8 6 base (by omega), field_eq w 0 4 x (by omega)]

theorem decode_encodeLoad (base : BitVec Config.ldstBaseBits) (r x : BitVec 4) :
    decode (encodeLoadStore layout layout.load base r x) = .ok (.ld (regOfBits r) base (regOfBits x)) := by
  have hbase : base.toNat < 64 := base.isLt
  have hn := encodeLoad_toNat base r x
  generalize encodeLoadStore layout layout.load base r x = w at hn ⊢
  rw [decode_load_format w (by omega), field_eq w 4 4 r (by omega), field_eq w 8 6 base (by omega), field_eq w 0 4 x (by omega)]

theorem decode_encodeImmediate (d : BitVec 4) (imm : Byte) :
    decode (encodeImmediate layout d imm) = .ok (decodeImmediate d imm) := by
  have hn := encodeImmediate_toNat d imm
  generalize encodeImmediate layout d imm = w at hn ⊢
  rw [decode_immediate_format w (by omega), field_eq w 8 4 d (by omega), field_eq w 0 8 imm (by omega)]

theorem decode_encodeRegReg (o a b : BitVec 4) :
    decode (encodeRegReg layout o a b) = .ok (decodeRegReg o a b (decodeExt a b)) := by
  have hn := encodeRegReg_toNat o a b
  generalize encodeRegReg layout o a b = w at hn ⊢
  rw [decode_regReg_format w (by omega), field_eq w 8 4 o (by omega), field_eq w 4 4 a (by omega), field_eq w 0 4 b (by omega)]

/-- An EXT word is the Reg/Reg word with opcode 15 and the EXT fields in the register slots (R85). -/
theorem encodeExt_eq (a e : BitVec 4) : encodeExt layout a e = encodeRegReg layout 15 a e := rfl

theorem decode_encodeExt (a e : BitVec 4) : decode (encodeExt layout a e) = .ok (decodeExt a e) := by
  rw [encodeExt_eq]
  exact decode_encodeRegReg 15 a e

theorem decode_encodeBranch (c : BitVec 2) (off : BitVec Config.branchImmBits) :
    decode (encodeBranch layout c off) = .ok (decodeBranch c off) := by
  have hoff : off.toNat < 1024 := off.isLt
  have hn := encodeBranch_toNat c off
  generalize encodeBranch layout c off = w at hn ⊢
  rw [decode_branch_format w (by omega), field_eq w 10 2 c (by omega), field_eq w 0 10 off (by omega)]

/-- Settles O2, format by format: each instruction's word is its format's, whose fields come back. -/
theorem decodeInvertsEncode : Obligations.DecodeInvertsEncode := by
  intro i hwf
  cases i with
  | ldi d imm =>
    have hne : d ≠ 0 := by simpa [Instr.wellFormed, ldiTargetOk] using hwf
    have hd : bitsOfReg d ≠ 0 := fun h => hne (congrArg regOfBits h)
    have h : decode (encode (.ldi d imm)) = _ := decode_encodeImmediate (bitsOfReg d) imm
    rw [h, decodeImmediate, if_neg hd, regOfBits_bitsOfReg]
  | ldioa imm => exact decode_encodeImmediate 0 imm
  | jmp addr => exact decode_encodeJump addr
  | ld d base idx => exact decode_encodeLoad base (bitsOfReg d) (bitsOfReg idx)
  | st src base idx => exact decode_encodeStore base (bitsOfReg src) (bitsOfReg idx)
  | bcc off | bcs off | bnz off | bz off => exact decode_encodeBranch _ off
  | addi a imm | adci a imm | subi a imm | sbci a imm => exact decode_encodeRegReg _ (bitsOfReg a) imm
  | add a b | adc a b | sub a b | sbc a b | and a b | or a b | xor a b | not a b | getpc a b | jmpr a b | cmp a b =>
    exact decode_encodeRegReg _ (bitsOfReg a) (bitsOfReg b)
  | cmpi imm => exact decode_encodeExt imm _
  | wait | reti | lpm => exact decode_encodeExt 0 _
  | lsr a | rrc a | lsl a | rlc a | ror a | rol a | stioa a | out a | inp a | mul a | rdf a | wrf a =>
    exact decode_encodeExt (bitsOfReg a) _

/-! Every word with w[15:12] other than 0011 is some format's word. -/

/-- The word is one of a format (R82); the EXT sub-format is Reg/Reg's opcode 15. -/
inductive InFormat : Word → Prop
  | jump (addr : BitVec Config.jumpAddrBits) : InFormat (encodeJump layout addr)
  | store (base : BitVec Config.ldstBaseBits) (r x : BitVec 4) : InFormat (encodeLoadStore layout layout.store base r x)
  | load (base : BitVec Config.ldstBaseBits) (r x : BitVec 4) : InFormat (encodeLoadStore layout layout.load base r x)
  | immediate (d : BitVec 4) (imm : Byte) : InFormat (encodeImmediate layout d imm)
  | regReg (o a b : BitVec 4) : InFormat (encodeRegReg layout o a b)
  | branch (c : BitVec 2) (off : BitVec Config.branchImmBits) : InFormat (encodeBranch layout c off)

/-- A word with a format word's number is of that format. -/
theorem InFormat.of_toNat {v w : Word} (hv : InFormat v) (h : v.toNat = w.toNat) : InFormat w :=
  BitVec.eq_of_toNat_eq h ▸ hv

/-- The top bits give the format, and its fields are read off the word (R90). -/
theorem inFormat_of_not_reserved (w : Word) (h : w.toNat / 4096 ≠ 3) : InFormat w := by
  have hw := w.isLt
  obtain h3 | h2 | h1 | h0 : w.toNat / 16384 = 3 ∨ w.toNat / 16384 = 2 ∨ w.toNat / 16384 = 1 ∨ w.toNat / 16384 = 0 := by omega
  · refine (InFormat.jump (w.extractLsb' 0 14)).of_toNat ?_
    simp only [encodeJump_toNat, field_toNat, Config.jumpAddrBits]
    omega
  · refine (InFormat.store (w.extractLsb' 8 6) (w.extractLsb' 4 4) (w.extractLsb' 0 4)).of_toNat ?_
    simp only [encodeStore_toNat, field_toNat, Config.ldstBaseBits]
    omega
  · refine (InFormat.load (w.extractLsb' 8 6) (w.extractLsb' 4 4) (w.extractLsb' 0 4)).of_toNat ?_
    simp only [encodeLoad_toNat, field_toNat, Config.ldstBaseBits]
    omega
  · obtain hi | hr | hb : w.toNat / 4096 = 0 ∨ w.toNat / 4096 = 1 ∨ w.toNat / 4096 = 2 := by omega
    · refine (InFormat.immediate (w.extractLsb' 8 4) (w.extractLsb' 0 8)).of_toNat ?_
      rw [encodeImmediate_toNat, field_toNat, field_toNat]
      omega
    · refine (InFormat.regReg (w.extractLsb' 8 4) (w.extractLsb' 4 4) (w.extractLsb' 0 4)).of_toNat ?_
      rw [encodeRegReg_toNat, field_toNat, field_toNat, field_toNat]
      omega
    · refine (InFormat.branch (w.extractLsb' 10 2) (w.extractLsb' 0 10)).of_toNat ?_
      simp only [encodeBranch_toNat, field_toNat, Config.branchImmBits]
      omega

/-! What the tables of opcodes select is well-formed. -/

theorem wellFormed_decodeImmediate (d : BitVec 4) (imm : Byte) : (decodeImmediate d imm).wellFormed = true := by
  rw [decodeImmediate]
  split
  next => rfl
  next hd =>
    have hr : regOfBits d ≠ 0 := fun h => hd (congrArg bitsOfReg h)
    simpa [Instr.wellFormed, ldiTargetOk] using hr

theorem wellFormed_decodeExt (a e : BitVec 4) : (decodeExt a e).wellFormed = true := by
  obtain ⟨e⟩ := e
  fin_cases e <;> rfl

/-- Opcode 15 is the EXT reading of the word, whatever that is; every other opcode selects a well-formed instruction. -/
theorem wellFormed_decodeRegReg (o a b : BitVec 4) (i : Instr) :
    (decodeRegReg o a b i).wellFormed = if o = 15 then i.wellFormed else true := by
  obtain ⟨o⟩ := o
  fin_cases o <;> rfl

theorem wellFormed_decodeBranch (c : BitVec 2) (off : BitVec Config.branchImmBits) : (decodeBranch c off).wellFormed = true := by
  obtain ⟨c⟩ := c
  fin_cases c <;> rfl

/-- A word of a format decodes to a well-formed instruction. -/
theorem InFormat.decodes {w : Word} (h : InFormat w) : ∃ i, decode w = .ok i ∧ i.wellFormed = true := by
  cases h with
  | jump addr => exact ⟨_, decode_encodeJump addr, rfl⟩
  | store base r x => exact ⟨_, decode_encodeStore base r x, rfl⟩
  | load base r x => exact ⟨_, decode_encodeLoad base r x, rfl⟩
  | immediate d imm => exact ⟨_, decode_encodeImmediate d imm, wellFormed_decodeImmediate d imm⟩
  | regReg o a b =>
    refine ⟨_, decode_encodeRegReg o a b, ?_⟩
    rw [wellFormed_decodeRegReg, wellFormed_decodeExt, ite_self]
  | branch c off => exact ⟨_, decode_encodeBranch c off, wellFormed_decodeBranch c off⟩

/-- Settles O3: a word that is not reserved is of a format (`inFormat_of_not_reserved`). -/
theorem decodeTotalOutsideReservedPrefix : Obligations.DecodeTotalOutsideReservedPrefix :=
  fun w => ⟨fun h => (inFormat_of_not_reserved w h).decodes, decode_reserved w⟩

/-! What the tables of opcodes select, encoded again. -/

theorem encode_decodeImmediate (d : BitVec 4) (imm : Byte) : encode (decodeImmediate d imm) = encodeImmediate layout d imm := by
  rw [decodeImmediate]
  split
  next hd => rw [hd]; rfl
  next => rfl

theorem encode_decodeBranch (c : BitVec 2) (off : BitVec Config.branchImmBits) :
    encode (decodeBranch c off) = encodeBranch layout c off := by
  obtain ⟨c⟩ := c
  fin_cases c <;> rfl

theorem encode_decodeRegReg (o a b : BitVec 4) (i : Instr) :
    encode (decodeRegReg o a b i) = if o = 15 then encode i else encodeRegReg layout o a b := by
  obtain ⟨o⟩ := o
  fin_cases o <;> rfl

/-- EXT opcodes other than those of WAIT, RETI and LPM keep their operand slot; for these three it is written as 0 (R92). -/
theorem encode_decodeExt (a e : BitVec 4) :
    encode (decodeExt a e) = if e = 10 ∨ e = 11 ∨ e = 15 then encodeExt layout 0 e else encodeExt layout a e := by
  obtain ⟨e⟩ := e
  fin_cases e <;> rfl

/-- An EXT word with its operand slot cleared (R92). -/
theorem encodeExt_clear_operand (a e : BitVec 4) : encodeExt layout a e &&& 0xFF0F = encodeExt layout 0 e := by
  have ha : ∀ a : BitVec 4, place layout.extOperand a &&& 0xFF0F = place layout.extOperand 0#4 := by decide
  have he : ∀ e : BitVec 4, place layout.extOpcode e &&& 0xFF0F = place layout.extOpcode e := by decide
  simp only [encodeExt, BitVec.and_or_distrib_right, ha, he]
  rfl

/-- A decoded EXT word encodes to itself, or its slot is one WAIT, RETI or LPM ignores (R92). -/
theorem encode_decodeExt_cases (a e : BitVec 4) :
    encode (decodeExt a e) = encodeExt layout a e ∨
    ((decodeExt a e = .wait ∨ decodeExt a e = .reti ∨ decodeExt a e = .lpm) ∧
      encode (decodeExt a e) = encodeExt layout a e &&& 0xFF0F) := by
  by_cases he : e = 10 ∨ e = 11 ∨ e = 15
  · refine .inr ⟨?_, by rw [encode_decodeExt, if_pos he, encodeExt_clear_operand]⟩
    obtain rfl | rfl | rfl := he
    · exact .inl rfl
    · exact .inr (.inl rfl)
    · exact .inr (.inr rfl)
  · exact .inl (by rw [encode_decodeExt, if_neg he])

/-- Settles O4: a word that decodes is of a format, and only EXT's words have a slot that is ignored. -/
theorem encodeInvertsDecodeUpToIgnoredSlot : Obligations.EncodeInvertsDecodeUpToIgnoredSlot := by
  intro w i h
  have hne : w.toNat / 4096 ≠ 3 := fun h3 => nomatch (decode_reserved w h3).symm.trans h
  cases inFormat_of_not_reserved w hne with
  | jump addr => cases (decode_encodeJump addr).symm.trans h; exact .inl rfl
  | store base r x => cases (decode_encodeStore base r x).symm.trans h; exact .inl rfl
  | load base r x => cases (decode_encodeLoad base r x).symm.trans h; exact .inl rfl
  | immediate d imm => cases (decode_encodeImmediate d imm).symm.trans h; exact .inl (encode_decodeImmediate d imm)
  | branch c off => cases (decode_encodeBranch c off).symm.trans h; exact .inl (encode_decodeBranch c off)
  | regReg o a b =>
    cases (decode_encodeRegReg o a b).symm.trans h
    by_cases ho : o = 15
    · rw [ho, ← encodeExt_eq]
      exact encode_decodeExt_cases a b
    · exact .inl (by rw [encode_decodeRegReg, if_neg ho])

/-- Settles O1: the decoder run on each word. -/
theorem decoderReadsWrittenOutWords : Obligations.DecoderReadsWrittenOutWords :=
  ⟨rfl, rfl, rfl, rfl, rfl, rfl, rfl, rfl, rfl, rfl, rfl⟩

end Sys2Proof
end

section
/-! The refused fetch (R91), and a call with its return (R94). -/

namespace Sys2Proof.Machine

open Sys2Proof.Claims

/-- A fetching CPU refuses a word that selects no format (R91, D3). -/
theorem cpuStep_of_undefined (s : State) (e : DecodeError) (ha : nextAction s = .fetch) (hd : decode s.fetchWord = .error e) :
    cpuStep s = .refused (.undefinedEncoding s.fetchWord) := by
  simp [cpuStep, ha, runInstruction, hd]

/-- A running CPU with no request ready and no halt fetches (R233). -/
theorem nextAction_fetch_of_running {s : State} (hrun : Running s) (ht : ¬TimerReady s) (he : ¬ExternalReady s)
    (hwait : s.waiting = false) : nextAction s = .fetch := by
  obtain ⟨hrstd, hpause⟩ := hrun
  exact (nextAction_fetch_iff s).mpr ⟨hrstd, hpause, (not_timerReady_iff s).mp ht, (not_externalReady_iff s).mp he, hwait⟩

/-- Settles O6: the boundary rule fetches, and the decoder answers an error for the word. -/
theorem undefinedWordIsRefused : Obligations.UndefinedWordIsRefused := by
  intro s s0 hmove hrun ht he hwait hword
  rw [step_of_cpuMoves s s0 hmove]
  obtain ⟨_, rfl⟩ := hmove
  have hfetch := (nextAction_takeTurn s).trans (nextAction_fetch_of_running hrun ht he hwait)
  exact cpuStep_of_undefined s.takeTurn _ hfetch (decode_reserved s.fetchWord hword)

/-- JMPR: `PC = {R2, R1}` modulo 2^14 and nothing else (R133, D11). -/
theorem execJmpr_eq (a b : RegIdx) (s : State) : execJmpr a b s = .next (s.setPc ((pair (s.x b) (s.x a)).setWidth 14)) := rfl

/-- JMPR's target as a number. -/
theorem jmprTarget_toNat (high low : Byte) :
    ((pair high low).setWidth 14 : CodeAddr).toNat = (high.toNat * 256 + low.toNat) % 16384 := by
  rw [BitVec.toNat_setWidth, pair_toNat]

/-- Settles O22: GETPC leaves the halves of the return address (O17), JMP keeps them, JMPR puts them together. -/
theorem callAndReturn : Obligations.CallAndReturn := by
  intro s rl rh target hrl hrh hne
  obtain ⟨t, hget, hlow, hhigh, -⟩ := getpcStoresReturnAddress s rl rh (.inl hne)
  refine ⟨t, t.setPc target, hget, execJmp_eq target t, rfl, fun v hvl hvh => ⟨_, execJmpr_eq rl rh v, ?_⟩⟩
  rw [State.setPc_x] at hvl hvh
  rw [State.setPc_pc, jmprTarget_toNat, hvh, hvl, hhigh hrh, hlow hrl]
  omega

end Sys2Proof.Machine
end

section
/-! Reg/Reg arithmetic and logic, with the immediate forms and CMPI (R119 to R134, R169): one outcome lemma for each shared shape. -/

namespace Sys2Proof.Machine

open Sys2Proof.Claims

/-! The outcome of each shape: `writeBack` of an addition, of a subtraction, of a bitwise result; `writeFlags` of a subtraction. -/

/-- `writeBack` leaves the result in the destination, r0 excepted. -/
theorem writeBack_x_same (s : State) (a : RegIdx) (r : Byte × Flags) (ha : a ≠ 0) :
    ((s.setX a r.1).setFlags r.2).advance.x a = r.1 := s.setX_x_same a r.1 ha

theorem addOutcome_of_writeBack {i : Instr} {s : State} {a : RegIdx} {p q : Byte} {cin : Bool}
    (h : exec i s = writeBack s a (setAdd s.flags p q cin)) : AddOutcome i s a p.toNat q.toNat cin.toNat := by
  obtain ⟨hresult, hc, hz, hie, htie⟩ := setAdd_spec s.flags p q cin
  refine ⟨_, h, fun ha => ?_, hc, hz, arithmeticFrame_writeBack s a _ hie htie⟩
  rw [writeBack_x_same s a _ ha, hresult]

theorem subOutcome_of_writeBack {i : Instr} {s : State} {a : RegIdx} {p q : Byte} {cin : Bool}
    (h : exec i s = writeBack s a (setSub s.flags p q cin)) : SubOutcome i s a p.toNat q.toNat (1 - cin.toNat) := by
  obtain ⟨hresult, hc, hz, hie, htie⟩ := setSub_spec s.flags p q cin
  refine ⟨_, h, fun ha => ?_, hc, hz, arithmeticFrame_writeBack s a _ hie htie⟩
  rw [writeBack_x_same s a _ ha, hresult]

/-- The difference of two bytes is 0 modulo 256 only where they are equal. -/
theorem compareOutcome_of_writeFlags {i : Instr} {s : State} {p q : Byte}
    (h : exec i s = writeFlags s (setSub s.flags p q true)) : CompareOutcome i s p.toNat q.toNat := by
  obtain ⟨-, hc, hz, hie, htie⟩ := setSub_spec s.flags p q true
  refine ⟨_, h, hc, hz.trans ?_, arithmeticFrame_writeFlags s _ hie htie⟩
  have hp := p.isLt
  have hq := q.isLt
  rw [Bool.toNat_true]
  omega

/-- A result known bit by bit, written back with C as given and Z from it. -/
theorem bitsOutcome_of_writeBack {i : Instr} {s : State} {a : RegIdx} {v : Byte} {c : Bool} {bit : Nat → Bool}
    (h : exec i s = writeBack s a (v, s.flags.withCZ c v)) (hv : ∀ k, k < 8 → v.getLsbD k = bit k) :
    BitsOutcome i s a bit c := by
  refine ⟨_, h, fun ha k hk => ?_, rfl, ?_, arithmeticFrame_writeBack s a _ rfl rfl⟩
  · rw [writeBack_x_same s a _ ha, hv k hk]
  · refine (byte_beq_zero_iff_bits v).trans (forall₂_congr fun k hk => ?_)
    rw [hv k hk]

/-! The instructions. -/

/-- Settles O10: each writes back the sum of `setAdd`, whose carry in is 0 or the old C. -/
theorem addInstructionsComputeSum : Obligations.AddInstructionsComputeSum := by
  intro s a b imm
  rw [← imm8_toNat imm]
  exact ⟨addOutcome_of_writeBack (cin := false) rfl, addOutcome_of_writeBack rfl,
    addOutcome_of_writeBack (cin := false) rfl, addOutcome_of_writeBack rfl⟩

/-- Settles O11: each writes back the difference of `setSub`, whose carry in is 1 (no borrow) or the old C. -/
theorem subInstructionsComputeDifference : Obligations.SubInstructionsComputeDifference := by
  intro s a b imm
  rw [← imm8_toNat imm]
  exact ⟨subOutcome_of_writeBack (cin := true) rfl, subOutcome_of_writeBack rfl,
    subOutcome_of_writeBack (cin := true) rfl, subOutcome_of_writeBack rfl⟩

/-- Settles O12: both write the flags of `setSub` without borrow. -/
theorem compareSetsFlagsOnly : Obligations.CompareSetsFlagsOnly := by
  intro s a b imm
  rw [← imm8_toNat imm]
  exact ⟨compareOutcome_of_writeFlags rfl, compareOutcome_of_writeFlags rfl⟩

/-- Settles O13: the bits of each bitwise operation are the library's; `setZ` leaves C as it was. -/
theorem logicInstructionsBitwise : Obligations.LogicInstructionsBitwise := by
  intro s a b
  refine ⟨bitsOutcome_of_writeBack rfl fun k _ => BitVec.getLsbD_and, bitsOutcome_of_writeBack rfl fun k _ => BitVec.getLsbD_or,
    bitsOutcome_of_writeBack rfl fun k _ => BitVec.getLsbD_xor, bitsOutcome_of_writeBack rfl fun k hk => ?_⟩
  rw [BitVec.getLsbD_not, decide_eq_true hk, Bool.true_and]

/-! The 16-bit chains: the carry or borrow of the low bytes goes into the high bytes. -/

/-- The carry of the low bytes' sum, as the number the high bytes' sum takes in. -/
theorem carry_toNat {c : Bool} {n : Nat} (hc : c = true ↔ 256 ≤ n) (hn : n < 512) : c.toNat = n / 256 := by
  cases c with
  | true =>
    have := hc.mp rfl
    rw [Bool.toNat_true]
    omega
  | false =>
    have : ¬256 ≤ n := fun h => nomatch hc.mpr h
    rw [Bool.toNat_false]
    omega

/-- The borrow of the low bytes' difference, as the number the high bytes' difference takes in. -/
theorem borrow_toNat {c : Bool} {p q : Nat} (hc : c = true ↔ q ≤ p) : 1 - c.toNat = if q ≤ p then 0 else 1 := by
  cases c with
  | true => rw [if_pos (hc.mp rfl), Bool.toNat_true]
  | false => rw [if_neg (fun h => nomatch hc.mpr h), Bool.toNat_false]

/-- A register other than the only destination is kept. -/
theorem x_eq_of_otherRegsKept {a r : RegIdx} {s t : State} (h : OtherRegsKept [a] s t) (hr : r ≠ a) : t.x r = s.x r :=
  h r (by simpa using hr)

/-- Settles O16: the first instruction leaves the second one's operands as they were, and the second keeps the first one's result;
the carry (`carry_toNat`) or borrow (`borrow_toNat`) of the low bytes is what the second takes in (O10, O11). -/
theorem carryChainsSixteenBitArithmetic : Obligations.CarryChainsSixteenBitArithmetic := by
  intro s al bl ah bh hal hah hne hbh
  have hxal := (s.x al).isLt
  have hxbl := (s.x bl).isLt
  have hxah := (s.x ah).isLt
  have hxbh := (s.x bh).isLt
  constructor
  · obtain ⟨⟨t, ht, hlow, hc, -, -, hregs, -⟩, -⟩ := subInstructionsComputeDifference s al bl 0
    obtain ⟨-, ⟨u, hu, hhigh, hcu, -, -, hregsu, -⟩, -⟩ := subInstructionsComputeDifference t ah bh 0
    rw [x_eq_of_otherRegsKept hregs hne.symm, x_eq_of_otherRegsKept hregs hbh, borrow_toNat hc] at hhigh hcu
    specialize hlow hal
    specialize hhigh hah
    refine ⟨t, u, ht, hu, ?_, hcu.trans ?_⟩
    · rw [x_eq_of_otherRegsKept hregsu hne]
      split at hhigh <;> omega
    · split <;> omega
  · obtain ⟨⟨t, ht, hlow, hc, -, -, hregs, -⟩, -⟩ := addInstructionsComputeSum s al bl 0
    obtain ⟨-, ⟨u, hu, hhigh, hcu, -, -, hregsu, -⟩, -⟩ := addInstructionsComputeSum t ah bh 0
    rw [x_eq_of_otherRegsKept hregs hne.symm, x_eq_of_otherRegsKept hregs hbh, carry_toNat hc (by omega)] at hhigh hcu
    specialize hlow hal
    specialize hhigh hah
    refine ⟨t, u, ht, hu, ?_, hcu.trans ?_⟩
    · rw [x_eq_of_otherRegsKept hregsu hne]
      omega
    · omega

/-- Settles O19: the pair's number modulo 2^14 is `jmprTarget_toNat`; nothing but PC is written. -/
theorem jmprJumpsToRegisterPair : Obligations.JmprJumpsToRegisterPair :=
  fun s a b => ⟨_, execJmpr_eq a b s, jmprTarget_toNat (s.x b) (s.x a), rfl, fun _ => rfl⟩

end Sys2Proof.Machine
end

section
/-! Jump and branch (R140). -/

namespace Sys2Proof.Machine

open Sys2Proof.Claims

/-- Settles O20: JMP is one write of PC (`execJmp_eq`), which leaves the RAM as it was (`State.setPc_ramRead`). -/
theorem jmpLoadsPc : Obligations.JmpLoadsPc :=
  fun s addr => ⟨s.setPc addr, execJmp_eq addr s, congrArg BitVec.toNat (s.setPc_pc addr), rfl, s.setPc_ramRead addr⟩

end Sys2Proof.Machine
end

section
/-! Conditional branch (R145 to R149). -/

namespace Sys2Proof.Machine

open Sys2Proof.Claims

/-- An instruction that runs `branchIf` on the condition has the branch's outcome: taken, it goes to its own address plus the offset
(`branchTarget_toNat`); not taken, to the next word (`advance_pc_toNat`). -/
theorem branchOutcome_of_branchIf {i : Instr} {s : State} {cond : Bool} {off : BitVec 10}
    (h : exec i s = branchIf cond off s) : BranchOutcome i s cond off := by
  cases cond with
  | true =>
    exact ⟨s.setPc (s.pc + branchOffset off), h.trans (branchIf_true off s), rfl,
      fun _ => branchTarget_toNat s.pc off, (nomatch ·)⟩
  | false =>
    exact ⟨s.advance, h.trans (branchIf_false off s), rfl, (nomatch ·), fun _ => advance_pc_toNat s⟩

/-- Settles O21: each of the four runs `branchIf` on its own condition, C or Z as it stands or inverted. -/
theorem branchesFollowTheirCondition : Obligations.BranchesFollowTheirCondition :=
  fun _ _ => ⟨branchOutcome_of_branchIf rfl, branchOutcome_of_branchIf rfl,
    branchOutcome_of_branchIf rfl, branchOutcome_of_branchIf rfl⟩

end Sys2Proof.Machine
end

section
/-! EXT: one-bit shifts, rotates and MUL (R160 to R165, R172). -/

namespace Sys2Proof.Machine

open Sys2Proof.Claims

/-- Settles O14: each writes back a one-bit shift with the bit shifted out as C, known bit by bit from `shiftRight_bit` and
`shiftLeft_bit`. -/
theorem shiftInstructionsMoveOneBit : Obligations.ShiftInstructionsMoveOneBit :=
  fun s a =>
    ⟨bitsOutcome_of_writeBack rfl (shiftRight_bit s.flags (s.x a) false),
      bitsOutcome_of_writeBack rfl (shiftRight_bit s.flags (s.x a) s.flags.c),
      bitsOutcome_of_writeBack rfl (shiftLeft_bit s.flags (s.x a) false),
      bitsOutcome_of_writeBack rfl (shiftLeft_bit s.flags (s.x a) s.flags.c)⟩

/-- Settles O15: each writes back a rotation with C as it was, known bit by bit from `rotateRight_bit` and `rotateLeft_bit`. -/
theorem rotatesStayWithinEightBits : Obligations.RotatesStayWithinEightBits :=
  fun s a =>
    ⟨bitsOutcome_of_writeBack rfl (rotateRight_bit s.flags (s.x a)),
      bitsOutcome_of_writeBack rfl (rotateLeft_bit s.flags (s.x a))⟩

/-- The product of two bytes fits in a word. -/
theorem byteProduct_toNat (p q : Byte) : (p.setWidth 16 * q.setWidth 16 : Word).toNat = p.toNat * q.toNat := by
  have hlt : p.toNat * q.toNat < 256 * 256 := Nat.mul_lt_mul'' p.isLt q.isLt
  rw [BitVec.toNat_mul, BitVec.toNat_setWidth_of_le (by decide), BitVec.toNat_setWidth_of_le (by decide)]
  exact Nat.mod_eq_of_lt hlt

/-- Settles O27: `execMul_eq` has the product from the old registers, whose two halves put together are the product. -/
theorem mulGivesUnsignedProduct : Obligations.MulGivesUnsignedProduct := by
  intro s a
  refine ⟨_, execMul_eq a s, ?_, registerFrame_setX_setX s 1 2 _ _⟩
  rw [State.advance_x, State.advance_x, State.setX_x_same _ 2 _ (by decide), State.setX_x_ne _ 2 1 _ (by decide),
    State.setX_x_same s 1 _ (by decide), highByte_toNat, lowByte_toNat, Nat.div_add_mod', byteProduct_toNat]

end Sys2Proof.Machine
end

section
/-! IOADDR, and the write-triggers of the timer (R166, R180, R214, R215). -/

namespace Sys2Proof.Machine

open Sys2Proof.Claims

/-- Settles O9: both write IOADDR (`State.setIoaddr`) and advance. -/
theorem ldioaAndStioaSelectIoAddress : Obligations.LdioaAndStioaSelectIoAddress :=
  fun s imm a =>
    ⟨⟨(s.setIoaddr imm).advance, rfl, rfl, pcNext_advance s _ (s.setIoaddr_pc imm), s.setIoaddr_ramRead imm⟩,
      ⟨(s.setIoaddr (s.x a)).advance, rfl, rfl, pcNext_advance s _ (s.setIoaddr_pc (s.x a)), s.setIoaddr_ramRead (s.x a)⟩⟩

/-- IN at a register whose read only draws a free value: the destination takes it, and nothing else but PC changes. -/
theorem execIn_of_drawn (s : State) (a : RegIdx) (r : IoAddr) (v : Byte) (hr : ioAddr s.ioaddr = some r)
    (hread : ioReadAt r s = .ok (v, s.drew)) :
    ∃ t, exec (.inp a) s = .next t ∧ t = { s with regs := t.regs, pc := t.pc, draws := t.draws } ∧
      OtherRegsKept [a] s t ∧ PcNext s t ∧ RamKept s t := by
  refine ⟨(s.drew.setX a v).advance, execIn_of_ok s s.drew a r v hr hread, ?_, otherRegsKept_setX s.drew a v,
    pcNext_advance s _ (s.drew.setX_pc a v), s.drew.setX_ramRead a v⟩
  rw [State.setX_eq]
  rfl

/-- A tick that finds TIMER above TTOP makes it 0, whether or not the tick also counts as an expiry (R217, D30). -/
theorem timerTick_timer_of_above (late : Bool) (s : State) (h : s.io.ttop.toNat < s.io.timer.toNat) :
    (timerTick late s).io.timer = 0 := by
  have hne : s.io.timer ≠ s.io.ttop := fun heq => absurd h (by rw [heq]; exact Nat.lt_irrefl _)
  rw [timerTick, if_neg hne, if_pos (BitVec.lt_def.mpr h)]
  cases late <;> rfl

/-- Settles O37: the two writes by the register IOADDR selects (`execOut_of_ok`), the reads by `execIn_of_drawn`. -/
theorem timerCaptureAndLoad : Obligations.TimerCaptureAndLoad := by
  intro s a
  refine ⟨fun hcapture => ?_, fun hload => ?_, ?_⟩
  · have hr : ioAddr s.ioaddr = some .capture := by rw [hcapture]; rfl
    exact ⟨_, execOut_of_ok s _ a .capture hr rfl, rfl, rfl, pcNext_advance s _ rfl⟩
  · have hr : ioAddr s.ioaddr = some .load := by rw [hload]; rfl
    exact ⟨_, execOut_of_ok s _ a .load hr rfl, rfl, rfl, pcNext_advance s _ rfl,
      fun habove late => timerTick_timer_of_above late _ habove⟩
  · rintro (hcapture | hload)
    · exact execIn_of_drawn s a .capture _ (by rw [hcapture]; rfl) rfl
    · exact execIn_of_drawn s a .load _ (by rw [hload]; rfl) rfl

end Sys2Proof.Machine
end

section
/-! Return from interrupt, and the enable bits (R171, R231, R233 to R238). -/

namespace Sys2Proof.Machine

open Sys2Proof.Claims

/-- Settles O45: `returnFromInterrupt_eq` lists everything RETI writes. -/
theorem retiRestoresBackup : Obligations.RetiRestoresBackup :=
  fun s => ⟨returnFromInterrupt s, rfl, returnFromInterrupt_pc s, returnFromInterrupt_ioaddr s, returnFromInterrupt_flags s,
    returnFromInterrupt_inHandler s, returnFromInterrupt_eq s, fun _ => rfl⟩

/-! The boundary rule where a request is ready. -/

/-- A running CPU enters a ready timer request (R233). -/
theorem nextAction_timer_of_ready {s : State} (hrun : Running s) (ht : TimerReady s) : nextAction s = .enter .timer := by
  obtain ⟨hrstd, hpause⟩ := hrun
  exact (nextAction_timer_iff s).mpr ⟨hrstd, hpause, (Bool.and_eq_true ..).mpr ht⟩

/-- A running CPU enters a ready external request where the timer's is not pending (R233, R234). -/
theorem nextAction_external_of_ready {s : State} (hrun : Running s) (ht : s.pendT = false) (he : ExternalReady s) :
    nextAction s = .enter .external := by
  obtain ⟨hrstd, hpause⟩ := hrun
  exact (nextAction_external_iff s).mpr ⟨hrstd, hpause, by rw [ht, Bool.false_and], (Bool.and_eq_true ..).mpr he⟩

/-- Settles O46: RETI loads what the entry saved (O45) and keeps latches and pins, so that a request still pending is ready under the
enables of the interrupted program. -/
theorem handlerReturnRestoresContext : Obligations.HandlerReturnRestoresContext := by
  intro s u src hbak
  rw [interruptEntry_bak] at hbak
  have hflags : (returnFromInterrupt u).flags = s.flags := by rw [returnFromInterrupt_flags, hbak]
  refine ⟨returnFromInterrupt u, rfl, ?_, ?_, hflags, fun _ => rfl, fun _ => rfl, rfl, fun hrun hpend htie => ?_,
    fun hrun hpendT hpendE hie => ?_⟩
  · rw [returnFromInterrupt_pc, hbak]
  · rw [returnFromInterrupt_ioaddr, hbak]
  · exact nextAction_timer_of_ready (s := returnFromInterrupt u) hrun ⟨hpend, by rw [hflags, htie]⟩
  · exact nextAction_external_of_ready (s := returnFromInterrupt u) hrun hpendT ⟨hpendE, by rw [hflags, hie]⟩

/-! The enable bits gate their own source. -/

theorem nextAction_ne_timer_of_tie {s : State} (h : s.flags.tie = false) : nextAction s ≠ .enter .timer := by
  intro henter
  obtain ⟨_, _, hready⟩ := (nextAction_timer_iff s).mp henter
  rw [h, Bool.and_false] at hready
  cases hready

theorem nextAction_ne_external_of_ie {s : State} (h : s.flags.ie = false) : nextAction s ≠ .enter .external := by
  intro henter
  obtain ⟨_, _, _, hready⟩ := (nextAction_external_iff s).mp henter
  rw [h, Bool.and_false] at hready
  cases hready

/-- The enables are kept but by WRF and RETI. -/
theorem ExecEffect.enables {i : Instr} {s t : State} (h : ExecEffect s i t) (hwrf : ∀ a, i ≠ .wrf a) (hreti : i ≠ .reti) :
    t.flags.ie = s.flags.ie ∧ t.flags.tie = s.flags.tie := by
  cases h with
  | data hf =>
    obtain ⟨_, _, _, _, henables⟩ := hf
    exact henables
  | wrf a => exact absurd rfl (hwrf a)
  | reti => exact absurd rfl hreti
  | getpcSame a v => exact ⟨congrArg Flags.ie (s.setX_flags a v), congrArg Flags.tie (s.setX_flags a v)⟩
  | inp a io draws v => exact ⟨congrArg Flags.ie (State.setX_flags _ a v), congrArg Flags.tie (State.setX_flags _ a v)⟩
  | _ => exact ⟨rfl, rfl⟩

/-- Outside a handler WRF of the byte that RDF reads from some FLAGS makes FLAGS those. -/
theorem execWrf_of_toByte (f : Flags) (s : State) (a : RegIdx) (hx : s.x a = f.toByte) (hh : s.inHandler = false) :
    exec (.wrf a) s = .next (s.setFlags f).advance := by
  refine (execWrf_allowed a s fun hin => ?_).trans (by rw [hx, Flags.ofByte_toByte])
  rw [hh] at hin
  cases hin

/-- Settles O48: the boundary rule for the gating, WRF of a FLAGS byte with the chosen pair, and what each effect of an instruction
keeps (`ExecEffect.enables`). -/
theorem interruptEnableBits : Obligations.InterruptEnableBits := by
  refine ⟨fun s => ?_, fun _ _ => ⟨rfl, rfl⟩, fun ie tie => ?_, fun s src => ?_, fun s => ?_, fun i s t h => (exec_effect h).enables⟩
  · exact ⟨nextAction_ne_external_of_ie, nextAction_ne_timer_of_tie, fun hrun hpend htie => nextAction_timer_of_ready hrun ⟨hpend, htie⟩,
      fun hrun hpendT hpendE hie => nextAction_external_of_ready hrun hpendT ⟨hpendE, hie⟩⟩
  · refine ⟨Flags.toByte { c := false, z := false, ie := ie, tie := tie }, fun s a hx hh => ?_⟩
    exact ⟨_, execWrf_of_toByte _ s a hx hh, rfl, rfl⟩
  · rw [interruptEntry_flags]
    exact ⟨rfl, rfl⟩
  · obtain ⟨t, ht, _, _, hflags, _⟩ := retiRestoresBackup s
    exact ⟨t, ht, by rw [hflags], by rw [hflags]⟩

end Sys2Proof.Machine
end

section
/-! IN and OUT at the GPIO and status addresses, and where they stop (R201 to R204, R206, R210, R211, R220). -/

namespace Sys2Proof.Machine

open Sys2Proof.Claims

/-- IN at a register whose read has no side effect: the destination takes the value, and nothing else but PC changes. -/
theorem execIn_of_pure (s : State) (d : RegIdx) (r : IoAddr) (v : Byte) (hr : ioAddr s.ioaddr = some r)
    (hread : ioReadAt r s = .ok (v, s)) :
    ∃ t, exec (.inp d) s = .next t ∧ (d ≠ 0 → t.x d = v) ∧ RegisterFrame [d] s t := by
  refine ⟨_, execIn_of_ok s s d r v hr hread, fun hd => ?_, registerFrame_setX s d v⟩
  rw [State.advance_x, State.setX_x_same s d v hd]

/-- What IN leaves in its destination is the value read. -/
theorem execIn_value {s t u : State} {d : RegIdx} {r : IoAddr} {v : Byte} (ht : exec (.inp d) s = .next t)
    (hr : ioAddr s.ioaddr = some r) (hread : ioReadAt r s = .ok (v, u)) (hd : d ≠ 0) : t.x d = v := by
  cases ht.symm.trans (execIn_of_ok s u d r v hr hread)
  rw [State.advance_x, State.setX_x_same u d v hd]

/-- OUT at a register that a write only stores to. -/
theorem execOut_of_setIo (s : State) (a : RegIdx) (r : IoAddr) (io : IoRegs) (hr : ioAddr s.ioaddr = some r)
    (hw : ioWriteAt r (s.x a) s = .ok (s.setIo io)) : ∃ t, exec (.out a) s = .next t ∧ t.io = io :=
  ⟨_, execOut_of_ok s _ a r hr hw, rfl⟩

/-- Settles O33: OUT stores (`execOut_of_setIo`), IN reads the storage byte back (O32), and the levels are `portLevels_bit`. -/
theorem gpioDirectionAndPort : Obligations.GpioDirectionAndPort := by
  refine ⟨fun s a => ⟨fun h => ?_, fun h => ?_, fun h => ?_, fun h => ?_⟩, fun s d hd => ?_,
    fun s k hk => ⟨portLevels_bit _ _ _ k hk, portLevels_bit _ _ _ k hk⟩, fun _ _ => ⟨rfl, rfl, rfl, rfl⟩⟩
  · exact execOut_of_setIo s a .ddra _ (by rw [h]; rfl) rfl
  · exact execOut_of_setIo s a .porta _ (by rw [h]; rfl) rfl
  · exact execOut_of_setIo s a .ddrb _ (by rw [h]; rfl) rfl
  · exact execOut_of_setIo s a .portb _ (by rw [h]; rfl) rfl
  · have hread (v : Byte) (hv : storageByte s.io s.ioaddr.toNat = some v) : ∃ t, exec (.inp d) s = .next t ∧ t.x d = v := by
      obtain ⟨t, ht, hx, _⟩ := inReadsMappedStorage s d v hv
      exact ⟨t, ht, hx hd⟩
    exact ⟨fun h => hread _ (by rw [h]; rfl), fun h => hread _ (by rw [h]; rfl), fun h => hread _ (by rw [h]; rfl),
      fun h => hread _ (by rw [h]; rfl)⟩

/-- Settles O34: the read draws a free value (`execIn_of_drawn`) that shows only in the bits of output pins (`pinValue_input`). -/
theorem inReadsInputPins : Obligations.InReadsInputPins := by
  rintro s d (h | h)
  · have hr : ioAddr s.ioaddr = some .pina := by rw [h]; rfl
    obtain ⟨t, ht, hframe⟩ := execIn_of_drawn s d .pina _ hr rfl
    refine ⟨t, ht, fun hd _ k hk hin => ?_, fun _ h5 => ?_, hframe⟩
    · rw [execIn_value ht hr rfl hd, pinValue_input _ _ _ k hk hin]
    · rw [h] at h5; cases h5
  · have hr : ioAddr s.ioaddr = some .pinb := by rw [h]; rfl
    obtain ⟨t, ht, hframe⟩ := execIn_of_drawn s d .pinb _ hr rfl
    refine ⟨t, ht, fun _ h4 => ?_, fun hd _ k hk hin => ?_, hframe⟩
    · rw [h] at h4; cases h4
    · rw [execIn_value ht hr rfl hd, pinValue_input _ _ _ k hk hin]

/-- OUT at a register that ignores writes only advances. -/
theorem execOut_of_ignored (s : State) (a : RegIdx) (r : IoAddr) (hr : ioAddr s.ioaddr = some r)
    (hw : ioWriteAt r (s.x a) s = .ok s) : ∃ t, exec (.out a) s = .next t ∧ t = { s with pc := t.pc } ∧ PcNext s t :=
  ⟨s.advance, execOut_of_ok s s a r hr hw, rfl, pcNext_advance s s rfl⟩

/-- Settles O35: STAT as a number is `IoRegs.stat_toNat`; a write of a read-only register is ignored. -/
theorem statAndReadOnlyAddresses : Obligations.StatAndReadOnlyAddresses := by
  intro s a
  refine ⟨fun h => ?_, ?_⟩
  · obtain ⟨t, ht, hx, hframe⟩ := execIn_of_pure s a .stat _ (by rw [h]; rfl) rfl
    refine ⟨t, ht, hframe, fun ha => ?_⟩
    rw [hx ha, IoRegs.stat_toNat]
  · rintro (h | h | h)
    · exact execOut_of_ignored s a .pina (by rw [h]; rfl) rfl
    · exact execOut_of_ignored s a .pinb (by rw [h]; rfl) rfl
    · exact execOut_of_ignored s a .stat (by rw [h]; rfl) rfl

/-- IN stops at an address with no register. -/
theorem execIn_of_unassigned (s : State) (a : RegIdx) (h : ioAddr s.ioaddr = none) : execIn a s = .refused .unassignedIoAddress := by
  simp only [execIn, ioRead, h, ioUnassignedRead_eq]

/-- OUT stops at an address with no register. -/
theorem execOut_of_unassigned (s : State) (a : RegIdx) (h : ioAddr s.ioaddr = none) :
    execOut a s = .refused .unassignedIoAddress := by
  simp only [execOut, ioWrite, h, ioUnassignedWrite_eq]

/-! Writes to the data registers of the serial ports, busy and idle (R206, R210). -/

theorem ioWriteAt_udr_busy (s : State) (v : Byte) (hb : s.io.ubusy = true) : ioWriteAt .udr v s = .error .uartWriteWhileBusy :=
  if_pos hb

theorem ioWriteAt_udr_idle (s : State) (v : Byte) (hb : s.io.ubusy = false) : ioWriteAt .udr v s = .ok (s.handUart v) := by
  simp only [ioWriteAt, hb, Bool.false_eq_true, if_false]

theorem ioWriteAt_sdr_busy (s : State) (v : Byte) (hb : s.io.sbusy = true) : ioWriteAt .sdr v s = .error .spiWriteWhileBusy :=
  if_pos hb

theorem ioWriteAt_sdr_idle (s : State) (v : Byte) (hb : s.io.sbusy = false) : ioWriteAt .sdr v s = .ok (s.handSpi v) := by
  simp only [ioWriteAt, hb, Bool.false_eq_true, if_false]

/-- Settles O36, by the lemma for each stop. -/
theorem ioRefusals : Obligations.IoRefusals := by
  refine fun s a => ⟨fun h => ?_, fun h hb => ?_, fun h hb => ?_⟩
  · have hnone := ioAddr_unassigned s.ioaddr h
    exact ⟨execIn_of_unassigned s a hnone, execOut_of_unassigned s a hnone⟩
  · exact execOut_of_error s a .udr _ (by rw [h]; rfl) (ioWriteAt_udr_busy s _ hb)
  · exact execOut_of_error s a .sdr _ (by rw [h]; rfl) (ioWriteAt_sdr_busy s _ hb)

/-! Reads of the data registers of the serial ports (R207, R208, R210). -/

theorem ioReadAt_sdr_busy (s : State) (hb : s.io.sbusy = true) : ioReadAt .sdr s = .ok (Config.freeByte s.draws, s.drew) :=
  if_pos hb

theorem ioReadAt_sdr_idle (s : State) (hb : s.io.sbusy = false) : ioReadAt .sdr s = .ok (s.io.srx, s) := by
  simp only [ioReadAt, hb, Bool.false_eq_true, if_false]

/-- Settles O41: idle the read has no side effect, busy it draws a free value. -/
theorem sdrReadIdleAndBusy : Obligations.SdrReadIdleAndBusy := by
  intro s d h
  have hr : ioAddr s.ioaddr = some .sdr := by rw [h]; rfl
  exact ⟨fun hb => execIn_of_pure s d .sdr _ hr (ioReadAt_sdr_idle s hb),
    fun hb => execIn_of_drawn s d .sdr _ hr (ioReadAt_sdr_busy s hb)⟩

/-- IN from UDR: the destination takes URX and UHB is cleared. -/
theorem execIn_udr (s : State) (d : RegIdx) (h : s.ioaddr = 0x08) :
    exec (.inp d) s = .next ((s.setIo { s.io with uhb := false }).setX d s.io.urx).advance :=
  execIn_of_ok s _ d .udr _ (by rw [h]; rfl) rfl

/-- Settles O39: IN from UDR (`execIn_udr`) clears UHB alone, so that a second IN finds the same URX. -/
theorem uartReceiveAndUdrRead : Obligations.UartReceiveAndUdrRead := by
  refine ⟨fun s b hr => if_pos hr, fun s d h => ?_⟩
  have hx (u : State) (hd : d ≠ 0) : ((u.setIo { u.io with uhb := false }).setX d u.io.urx).advance.x d = u.io.urx := by
    rw [State.advance_x, State.setX_x_same _ d _ hd]
  refine ⟨_, execIn_udr s d h, hx s, ?_, ?_, otherRegsKept_setX _ d _, pcNext_advance s _ (State.setX_pc _ d _),
    State.setX_ramRead _ d _, fun hd => ⟨_, execIn_udr _ d ?_, ?_⟩⟩
  · rw [State.advance_io, State.setX_io, State.setIo_io]
  · rw [State.setX_eq]; rfl
  · rw [State.advance_ioaddr, State.setX_ioaddr, State.setIo_ioaddr, h]
  · rw [hx _ hd, State.advance_io, State.setX_io, State.setIo_io]

end Sys2Proof.Machine
end

section
/-! Interrupts at a boundary, PAUSE, and handlers that do not stack (R233 to R237, R244, R260). -/

namespace Sys2Proof.Machine

open Sys2Proof.Claims

/-- Where the boundary rule takes a request the CPU's move is that entry. -/
theorem step_of_cpuMoves_enter (s s0 : State) (src : IrqSource) (h : CpuMoves s s0) (ha : nextAction s = .enter src) :
    step s = .next (interruptEntry src s0) := by
  rw [step_of_cpuMoves s s0 h]
  obtain ⟨_, rfl⟩ := h
  simp only [cpuStep, nextAction_takeTurn, ha]

theorem interruptEntry_effect (src : IrqSource) (s : State) : EntryEffect s (interruptEntry src s) src.vector.toNat :=
  ⟨rfl, rfl, rfl, rfl, rfl, rfl, rfl, rfl, rfl, rfl, rfl⟩

/-- Settles O44: the boundary rule takes the timer's request, or else the external one, and the step is its entry. -/
theorem interruptEntryAtBoundary : Obligations.InterruptEntryAtBoundary := by
  intro s s0 hmove hrun
  have hs0 : s0 = s.takeTurn := hmove.2
  refine ⟨fun ht => ?_, fun ht he => ?_⟩
  · refine ⟨_, step_of_cpuMoves_enter s s0 .timer hmove (nextAction_timer_of_ready hrun ht), interruptEntry_effect .timer s0, rfl, ?_⟩
    rw [hs0]; rfl
  · obtain ⟨hrstd, hpause⟩ := hrun
    have haction : nextAction s = .enter .external :=
      (nextAction_external_iff s).mpr ⟨hrstd, hpause, (not_timerReady_iff s).mp ht, (Bool.and_eq_true ..).mpr he⟩
    refine ⟨_, step_of_cpuMoves_enter s s0 .external hmove haction, interruptEntry_effect .external s0, rfl, ?_⟩
    rw [hs0]; rfl

/-- A running CPU in a handler with the external enable clear and no timer request fetches, if it is not halted. -/
theorem nextAction_fetch_of_masked {u : State} (hrun : Running u) (hpendT : u.pendT = false) (hie : u.flags.ie = false)
    (hwait : u.waiting = false) : nextAction u = .fetch := by
  obtain ⟨hrstd, hpause⟩ := hrun
  exact (nextAction_fetch_iff u).mpr ⟨hrstd, hpause, by rw [hpendT, Bool.false_and], by rw [hie, Bool.and_false], hwait⟩

/-- Settles O47: the timer's entry (O44) saves the context and keeps PEND_E; RETI brings the context back, enables included, so that the
external request is ready at the boundary after it. -/
theorem simultaneousRequestsTimerFirst : Obligations.SimultaneousRequestsTimerFirst := by
  intro s s0 hmove hrun ht he
  obtain ⟨hpendE, hieS⟩ := he
  obtain ⟨t, hstep, ⟨hbakPc, -, hbakFlags, hpc, -⟩, hpendT, hpendEt⟩ := (interruptEntryAtBoundary s s0 hmove hrun).1 ht
  obtain ⟨-, rfl⟩ := hmove
  refine ⟨t, hstep, hpc, hpendEt.trans hpendE, hpendT, ?_⟩
  intro u u0 hmoveU hrunU hbak hpendEu hpendTu hie hwait hreti
  have hfetch := nextAction_fetch_of_masked hrunU hpendTu hie hwait
  have hstepU : step u = .next (returnFromInterrupt u0) := step_of_cpuMoves_fetch u u0 .reti hmoveU hfetch hreti
  obtain ⟨-, rfl⟩ := hmoveU
  have hpcV : (returnFromInterrupt u.takeTurn).pc = s.pc := by
    rw [returnFromInterrupt_pc, State.takeTurn_bak, hbak, hbakPc, State.takeTurn_pc]
  have hflagsV : (returnFromInterrupt u.takeTurn).flags = s.flags := by
    rw [returnFromInterrupt_flags, State.takeTurn_bak, hbak, hbakFlags, State.takeTurn_flags]
  refine ⟨_, hstepU, hpcV, fun v0 hmoveV => ?_⟩
  have henter : nextAction (returnFromInterrupt u.takeTurn) = .enter .external :=
    nextAction_external_of_ready hrunU hpendTu ⟨hpendEu, by rw [hflagsV, hieS]⟩
  have hstepV := step_of_cpuMoves_enter _ v0 .external hmoveV henter
  obtain ⟨-, rfl⟩ := hmoveV
  exact ⟨_, hstepV, rfl, hpcV, hflagsV, rfl⟩

/-- Settles O50: paused or in reset the CPU is idle (`nextAction_idle_of_stopped`). -/
theorem pauseStopsTheCpu : Obligations.PauseStopsTheCpu :=
  fun s s0 hmove hstop => step_of_cpuMoves_idle s s0 hmove (nextAction_idle_of_stopped s hstop)

/-- Settles O60: what else writes the backup registers (O57) is an entry, and inside a handler no request is enabled. -/
theorem noEntryInsideHandler : Obligations.NoEntryInsideHandler := by
  intro s t hinv hin hstep
  obtain ⟨hie, htie⟩ := hinv.masked hin
  rcases backupWrittenOnlyByEntry s t hstep with hkept | ⟨⟨_, h⟩ | ⟨_, h⟩, _⟩ | hreset
  · exact .inl hkept
  · rw [htie] at h; cases h
  · rw [hie] at h; cases h
  · exact .inr hreset

end Sys2Proof.Machine
end

section
/-! The timer: ticks and prescaler clocks, one and many (R212, R217). -/

namespace Sys2Proof.Machine

open Sys2Proof.Claims

/-- The state with another TIMER. -/
def State.withTimer (s : State) (v : Word) : State := s.setIo { s.io with timer := v }

/-- The state with another prescaler phase. -/
def State.withPhase (s : State) (p : Byte) : State := s.setIo { s.io with prescale := p }

theorem State.withTimer_self {s : State} {v : Word} (h : s.io.timer = v) : s.withTimer v = s := by rw [← h]; rfl

theorem State.withPhase_self {s : State} {p : Byte} (h : s.io.prescale = p) : s.withPhase p = s := by rw [← h]; rfl

@[simp] theorem State.withTimer_timer (s : State) (v : Word) : (s.withTimer v).io.timer = v := rfl
@[simp] theorem State.withTimer_ttop (s : State) (v : Word) : (s.withTimer v).io.ttop = s.io.ttop := rfl
@[simp] theorem State.withTimer_withTimer (s : State) (v w : Word) : (s.withTimer v).withTimer w = s.withTimer w := rfl
@[simp] theorem State.withPhase_prescale (s : State) (p : Byte) : (s.withPhase p).io.prescale = p := rfl
@[simp] theorem State.withPhase_tdiv (s : State) (p : Byte) : (s.withPhase p).io.tdiv = s.io.tdiv := rfl
@[simp] theorem State.withPhase_withPhase (s : State) (p q : Byte) : (s.withPhase p).withPhase q = s.withPhase q := rfl

/-! One tick, one clock. -/

theorem timerTick_of_below (late : Bool) (s : State) (h : s.io.timer.toNat < s.io.ttop.toNat) :
    timerTick late s = s.withTimer (s.io.timer + 1) := by
  have hne : s.io.timer ≠ s.io.ttop := fun heq => absurd h (by rw [heq]; exact Nat.lt_irrefl _)
  have hnot : ¬s.io.ttop < s.io.timer := fun hlt => Nat.lt_asymm h (BitVec.lt_def.mp hlt)
  rw [timerTick, if_neg hne, if_neg hnot]
  rfl

theorem timerTick_of_top (late : Bool) (s : State) (h : s.io.timer = s.io.ttop) :
    timerTick late s = { s.withTimer 0 with pendT := s.pendT || s.flags.tie } := by
  rw [timerTick, if_pos h, timerExpiry, latches_eq]
  rfl

theorem timerTick_of_above (late : Bool) (s : State) (h : s.io.ttop.toNat < s.io.timer.toNat) :
    timerTick late s = { s.withTimer 0 with pendT := s.pendT || (late && s.flags.tie) } := by
  have hne : s.io.timer ≠ s.io.ttop := fun heq => absurd h (by rw [heq]; exact Nat.lt_irrefl _)
  rw [timerTick, if_neg hne, if_pos (BitVec.lt_def.mpr h)]
  cases late with
  | true =>
    rw [if_pos rfl, timerExpiry, latches_eq]
    rfl
  | false =>
    rw [Bool.false_and, Bool.or_false]
    rfl

theorem timerClock_of_counting (late : Bool) (s : State) (h : s.io.prescale.toNat < s.io.tdiv.toNat) :
    timerClock late s = s.withPhase (s.io.prescale + 1) :=
  if_pos (BitVec.lt_def.mpr h)

theorem timerClock_of_phase_full (late : Bool) (s : State) (h : s.io.prescale = s.io.tdiv) :
    timerClock late s = timerTick late (s.withPhase 0) :=
  if_neg fun hlt => absurd (BitVec.lt_def.mp hlt) (by rw [h]; exact Nat.lt_irrefl _)

/-- Out of reset the clock reaches the prescaler. -/
theorem applyEvent_timerClock (late : Bool) (s : State) (hr : s.pins.rstd = true) :
    applyEvent (.timerClock late) s = timerClock late s := if_pos hr

/-- Settles O52: the phase is full, so the clock is a tick, and the tick finds TIMER above TTOP (`timerTick_of_above`). -/
theorem timerAboveTopResets : Obligations.TimerAboveTopResets := by
  intro s late hr habove hphase
  refine ⟨s.pendT || (late && s.flags.tie), ?_, fun hp => ?_, fun hp => by rw [hp, Bool.true_or]⟩
  · rw [applyEvent_timerClock late s hr, timerClock_of_phase_full late s hphase]
    exact timerTick_of_above late (s.withPhase 0) habove
  · rw [Bool.or_eq_true, Bool.and_eq_true] at hp
    exact hp.imp_right And.right

/-! Many clocks. -/

/-- As many clocks as TDIV allows only move the phase. -/
theorem timerClock_iterate_phase (late : Bool) (s : State) (h0 : s.io.prescale = 0) (j : Nat) (hj : j ≤ s.io.tdiv.toNat) :
    (timerClock late)^[j] s = s.withPhase (BitVec.ofNat 8 j) := by
  induction j with
  | zero => exact (State.withPhase_self h0).symm
  | succ j ih =>
    have hbound := s.io.tdiv.isLt
    have hcount : (s.withPhase (BitVec.ofNat 8 j)).io.prescale.toNat < (s.withPhase (BitVec.ofNat 8 j)).io.tdiv.toNat := by
      rw [State.withPhase_prescale, State.withPhase_tdiv, BitVec.toNat_ofNat]
      omega
    rw [Function.iterate_succ_apply', ih (by omega), timerClock_of_counting late _ hcount, State.withPhase_withPhase,
      State.withPhase_prescale, BitVec.ofNat_add]
    rfl

/-- From phase 0, TDIV + 1 clocks are one tick. -/
theorem timerClock_iterate_period (late : Bool) (s : State) (h0 : s.io.prescale = 0) :
    (timerClock late)^[s.io.tdiv.toNat + 1] s = timerTick late s := by
  have hfull : BitVec.ofNat 8 s.io.tdiv.toNat = s.io.tdiv := by rw [BitVec.ofNat_toNat, BitVec.setWidth_eq]
  rw [Function.iterate_succ_apply', timerClock_iterate_phase late s h0 _ (Nat.le_refl _), hfull,
    timerClock_of_phase_full late _ rfl, State.withPhase_withPhase, State.withPhase_self h0]

/-- As many periods as TTOP allows only count TIMER up from 0. -/
theorem timerClock_iterate_count (late : Bool) (s : State) (h0 : s.io.prescale = 0) (ht : s.io.timer = 0) (k : Nat)
    (hk : k ≤ s.io.ttop.toNat) :
    (timerClock late)^[k * (s.io.tdiv.toNat + 1)] s = s.withTimer (BitVec.ofNat 16 k) := by
  induction k with
  | zero =>
    rw [Nat.zero_mul]
    exact (State.withTimer_self ht).symm
  | succ k ih =>
    have hbound := s.io.ttop.isLt
    have hbelow : (s.withTimer (BitVec.ofNat 16 k)).io.timer.toNat < (s.withTimer (BitVec.ofNat 16 k)).io.ttop.toNat := by
      rw [State.withTimer_timer, State.withTimer_ttop, BitVec.toNat_ofNat]
      omega
    rw [Nat.succ_mul, Nat.add_comm, Function.iterate_add_apply, ih (by omega)]
    refine (timerClock_iterate_period late (s.withTimer (BitVec.ofNat 16 k)) h0).trans ?_
    rw [timerTick_of_below late _ hbelow, State.withTimer_withTimer, State.withTimer_timer, BitVec.ofNat_add]
    rfl

/-- The period after that takes TIMER back to 0 with one expiry. -/
theorem timerClock_iterate_expiry (late : Bool) (s : State) (h0 : s.io.prescale = 0) (ht : s.io.timer = 0) :
    (timerClock late)^[(s.io.ttop.toNat + 1) * (s.io.tdiv.toNat + 1)] s = { s with pendT := s.pendT || s.flags.tie } := by
  have htop : BitVec.ofNat 16 s.io.ttop.toNat = s.io.ttop := by rw [BitVec.ofNat_toNat, BitVec.setWidth_eq]
  rw [Nat.succ_mul, Nat.add_comm, Function.iterate_add_apply, timerClock_iterate_count late s h0 ht _ (Nat.le_refl _), htop]
  refine (timerClock_iterate_period late (s.withTimer s.io.ttop) h0).trans ?_
  rw [timerTick_of_top late _ rfl, State.withTimer_withTimer, State.withTimer_self ht]
  rfl

/-- A run along an agenda of clocks is that many prescaler clocks. -/
theorem run_clocks (n : Nat) (s : State) (hr : s.pins.rstd = true) :
    Host.Core.run Sys2Proof.core n { s with agenda := clocks n } = .next { (timerClock false)^[n] s with agenda := [] } := by
  induction n generalizing s with
  | zero => exact run_zero _
  | succ n ih =>
    have hstep : step { s with agenda := clocks (n + 1) } = .next { timerClock false s with agenda := clocks n } := by
      rw [step_of_agenda_event _ (.timerClock false) (clocks n) List.replicate_succ, ← timerClock_agenda]
      exact congrArg _ (applyEvent_timerClock false { s with agenda := clocks n } hr)
    have hrstd : (timerClock false s).pins.rstd = true := by rw [timerClock_frame, hr]
    rw [run_succ n _ _ hstep, ih _ hrstd, Function.iterate_succ_apply]

/-- Settles O51: a run along the clocks is `run_clocks`, and what they do is `timerClock_iterate_count` and
`timerClock_iterate_expiry`. -/
theorem timerCountsToTop : Obligations.TimerCountsToTop := by
  intro s k hr ht h0
  refine ⟨fun hk => ⟨_, run_clocks _ s hr, ?_⟩, fun hk => ⟨_, run_clocks _ s hr, ?_⟩⟩
  · have hbound := s.io.ttop.isLt
    rw [timerClock_iterate_count false s h0 ht k hk]
    exact ⟨(BitVec.toNat_ofNat k 16).trans (Nat.mod_eq_of_lt (by omega)), h0, rfl, rfl⟩
  · rw [hk, timerClock_iterate_expiry false s h0 ht]
    exact ⟨ht, h0, rfl, rfl⟩

end Sys2Proof.Machine
end

section
/-! The serial ports: a byte handed over, and that a busy port eventually finishes with it (R206, R210, D24). -/

namespace Sys2Proof.Machine

open Sys2Proof.Claims

/-! One account of both ports: whether a port is busy, the byte it owns, what it has sent. -/

/-- The UART transmitter or the SPI port. -/
inductive SerialPort where
  | uart
  | spi

/-- What a port's transfer consists of. -/
structure PortView where
  busy : Bool
  owned : Byte
  sent : List Byte

def SerialPort.view : SerialPort → State → PortView
  | .uart, s => { busy := s.io.ubusy, owned := s.io.utx, sent := s.uartOut }
  | .spi, s => { busy := s.io.sbusy, owned := s.io.stx, sent := s.spiOut }

/-- The events that end a transfer of the port. -/
inductive SerialPort.Completes : SerialPort → Event → Prop
  | uart : Completes .uart .uartSent
  | spi (b : Byte) : Completes .spi (.spiDone b)

/-- The transfer in flight has ended: the port is idle and has sent the byte `b` after what it had sent. -/
structure SerialPort.Delivered (p : SerialPort) (b : Byte) (out : List Byte) (t : State) : Prop where
  idle : (p.view t).busy = false
  sent : (p.view t).sent = out ++ [b]

/-! Events. -/

theorem applyEvent_uartSent_busy (s : State) (hr : s.pins.rstd = true) (hb : s.io.ubusy = true) :
    applyEvent .uartSent s = { s with io := { s.io with ubusy := false }, uartOut := s.uartOut ++ [s.io.utx] } :=
  (if_pos hr).trans (if_pos hb)

theorem applyEvent_spiDone_busy (s : State) (b : Byte) (hr : s.pins.rstd = true) (hb : s.io.sbusy = true) :
    applyEvent (.spiDone b) s = { s with io := { s.io with sbusy := false, srx := b }, spiOut := s.spiOut ++ [s.io.stx] } :=
  (if_pos hr).trans (if_pos hb)

/-- An event that ends the port's transfer delivers the byte it owned. -/
theorem SerialPort.Completes.delivers {p : SerialPort} {e : Event} {b : Byte} {out : List Byte} {s : State} (he : p.Completes e)
    (hr : s.pins.rstd = true) (hv : p.view s = { busy := true, owned := b, sent := out }) : p.Delivered b out (applyEvent e s) := by
  cases he with
  | uart =>
    obtain ⟨hbusy, rfl, rfl⟩ := PortView.mk.inj hv
    rw [applyEvent_uartSent_busy s hr hbusy]
    exact ⟨rfl, rfl⟩
  | spi c =>
    obtain ⟨hbusy, rfl, rfl⟩ := PortView.mk.inj hv
    rw [applyEvent_spiDone_busy s c hr hbusy]
    exact ⟨rfl, rfl⟩

/-- Every other event but a reset leaves the port's transfer alone. -/
theorem applyEvent_keeps_view (p : SerialPort) (e : Event) (s : State) (hreset : ∀ u, e ≠ .assertRSTD u) (he : ¬p.Completes e) :
    p.view (applyEvent e s) = p.view s := by
  cases e with
  | timerClock late =>
    simp only [applyEvent, whenRunning]
    split
    · rw [timerClock_frame]
      cases p <;> rfl
    · rfl
  | uartSent =>
    simp only [applyEvent, whenRunning, uartSent]
    cases p with
    | uart => exact absurd .uart he
    | spi =>
      repeat' split
      all_goals rfl
  | spiDone b =>
    simp only [applyEvent, whenRunning, spiDone]
    cases p with
    | uart =>
      repeat' split
      all_goals rfl
    | spi => exact absurd (.spi b) he
  | uartReceived b =>
    simp only [applyEvent, whenRunning]
    split <;> cases p <;> rfl
  | driveINT level =>
    simp only [applyEvent]
    split <;> cases p <;> rfl
  | assertRSTD u => exact absurd rfl (hreset u)
  | drivePA v | drivePB v | driveRXD level | driveSDI level | drivePAUSE level | releaseRSTD => cases p <;> rfl

/-! Instructions. -/

/-- `IOWrite` that goes through is the write of an assigned register. -/
theorem ioWrite_ok {ioa v : Byte} {s t : State} (h : ioWrite ioa v s = .ok t) : ∃ r, ioWriteAt r v s = .ok t := by
  unfold ioWrite at h
  split at h
  next r _ => exact ⟨r, h⟩
  next => cases h

/-- `IORead` that goes through is the read of an assigned register. -/
theorem ioRead_ok {ioa v : Byte} {s t : State} (h : ioRead ioa s = .ok (v, t)) : ∃ r, ioReadAt r s = .ok (v, t) := by
  unfold ioRead at h
  split at h
  next r _ => exact ⟨r, h⟩
  next => cases h

/-- OUT goes on where its write goes through. -/
theorem execOut_ok {a : RegIdx} {s t : State} (h : execOut a s = .next t) : ∃ r u, ioWriteAt r (s.x a) s = .ok u ∧ t = u.advance := by
  unfold execOut at h
  split at h
  next u hu =>
    obtain ⟨r, hr⟩ := ioWrite_ok hu
    exact ⟨r, u, hr, by cases h; rfl⟩
  next => cases h

/-- A write that goes through does not reach the port's transfer while it is busy. -/
theorem ioWriteAt_keeps_view (p : SerialPort) {r : IoAddr} {v : Byte} {s t : State} (h : ioWriteAt r v s = .ok t)
    (hb : (p.view s).busy = true) : p.view { s with io := t.io } = p.view s := by
  cases p with
  | uart =>
    obtain ⟨hbusy, howned⟩ := ioWriteAt_keeps_uart r v s t h hb
    simp only [SerialPort.view, howned, hbusy.trans hb.symm]
  | spi =>
    obtain ⟨hbusy, howned⟩ := ioWriteAt_keeps_spi r v s t h hb
    simp only [SerialPort.view, howned, hbusy.trans hb.symm]

theorem ioReadAt_keeps_view (p : SerialPort) {r : IoAddr} {v : Byte} {s t : State} (h : ioReadAt r s = .ok (v, t)) :
    p.view { s with io := t.io } = p.view s := by
  obtain ⟨hubusy, hutx, hsbusy, hstx⟩ := ioReadAt_keeps_ports r v s t h
  cases p with
  | uart => simp only [SerialPort.view, hubusy, hutx]
  | spi => simp only [SerialPort.view, hsbusy, hstx]

/-- No instruction that goes on takes back or replaces a byte a port owns: OUT to its data register is refused while it is busy. -/
theorem exec_keeps_view (p : SerialPort) {i : Instr} {s t : State} (h : exec i s = .next t) (hb : (p.view s).busy = true) :
    p.view t = p.view s := by
  have he := exec_effect h
  have hio : p.view { s with io := t.io } = p.view s := by
    by_cases hout : ∃ a, i = .out a
    · obtain ⟨a, rfl⟩ := hout
      obtain ⟨r, u, hu, rfl⟩ := execOut_ok h
      rw [State.advance_io]
      exact ioWriteAt_keeps_view p hu hb
    by_cases hin : ∃ a, i = .inp a
    · obtain ⟨a, rfl⟩ := hin
      obtain ⟨u, v, hu, -, rfl⟩ := execIn_next s t a h
      obtain ⟨r, hr⟩ := ioRead_ok hu
      rw [State.advance_io, State.setX_io]
      exact ioReadAt_keeps_view p hr
    · rw [he.io (fun a ha => hout ⟨a, ha⟩) (fun a ha => hin ⟨a, ha⟩)]
  rw [← hio, he.frame]
  cases p <;> rfl

/-! What a run reaches. -/

theorem eventually_of_next {s t : State} {P : State → Prop} (h : step s = .next t) (ht : EventuallyUnlessStopped t P) :
    EventuallyUnlessStopped s P := by
  obtain ⟨n, hn⟩ := ht
  exact ⟨n + 1, by rwa [run_succ n s t h]⟩

theorem eventually_of_holds {s : State} {P : State → Prop} (h : P s) : EventuallyUnlessStopped s P :=
  ⟨0, .inl ⟨s, run_zero s, h⟩⟩

theorem eventually_of_refused {s : State} {P : State → Prop} {r : Refusal} (h : step s = .refused r) :
    EventuallyUnlessStopped s P :=
  ⟨1, .inr ⟨r, core_run_refused Sys2Proof.core 0 s r h⟩⟩

theorem eventually_imp {s : State} {P Q : State → Prop} (h : EventuallyUnlessStopped s P) (hPQ : ∀ t, P t → Q t) :
    EventuallyUnlessStopped s Q := by
  obtain ⟨n, ⟨t, hrun, ht⟩ | hstop⟩ := h
  · exact ⟨n, .inl ⟨t, hrun, hPQ t ht⟩⟩
  · exact ⟨n, .inr hstop⟩

/-! One step while the port is busy. -/

/-- Out of reset with no reset ahead, the port owns `b` and has sent `out` before it. -/
structure SerialPort.InFlight (p : SerialPort) (b : Byte) (out : List Byte) (s : State) : Prop where
  rstd : s.pins.rstd = true
  noReset : NoResetAhead s
  view : p.view s = { busy := true, owned := b, sent := out }

section Transfer

variable {p : SerialPort} {b : Byte} {out : List Byte} {s : State}

/-- The transfer is in flight where the pins, the agenda and what the port owns are the same. -/
theorem SerialPort.InFlight.congr {t : State} (h : p.InFlight b out s) (hpins : t.pins.rstd = s.pins.rstd)
    (hagenda : t.agenda = s.agenda) (hview : p.view t = p.view s) : p.InFlight b out t :=
  ⟨hpins.trans h.rstd, by rw [NoResetAhead, hagenda]; exact h.noReset, hview.trans h.view⟩

theorem SerialPort.InFlight.takeTurn (h : p.InFlight b out s) : p.InFlight b out s.takeTurn :=
  ⟨h.rstd, noResetAhead_takeTurn s h.noReset, by rw [← h.view]; cases p <;> rfl⟩

/-- The CPU's move does not end the transfer. -/
theorem SerialPort.InFlight.of_cpuStep {t : State} (h : p.InFlight b out s) (hstep : cpuStep s = .next t) :
    p.InFlight b out t ∧ t.agenda = s.agenda := by
  rcases cpuStep_cases s t hstep with ⟨_, rfl⟩ | ⟨src, _, rfl⟩ | ⟨_, i, _, hexec⟩
  · exact ⟨h, rfl⟩
  · exact ⟨h.congr rfl rfl (by cases p <;> rfl), rfl⟩
  · have hframe := (exec_effect hexec).frame
    have hagenda : t.agenda = s.agenda := by rw [hframe]
    exact ⟨h.congr (by rw [hframe]) hagenda (exec_keeps_view p hexec (by rw [h.view])), hagenda⟩

/-- Nor does any event but a reset and the port's own. -/
theorem SerialPort.InFlight.of_event (h : p.InFlight b out s) (e : Event) (he : ∀ u, e ≠ .assertRSTD u) (hc : ¬p.Completes e) :
    p.InFlight b out (applyEvent e s) ∧ (applyEvent e s).agenda = s.agenda := by
  have hagenda : (applyEvent e s).agenda = s.agenda := by rw [applyEvent_frame e s he]
  have hrstd := (applyEvent_rstd e s he h.rstd).trans h.rstd.symm
  exact ⟨h.congr hrstd hagenda (applyEvent_keeps_view p e s he hc), hagenda⟩

/-- What a step does to a transfer in flight. -/
inductive SerialPort.Progress (p : SerialPort) (b : Byte) (out : List Byte) (s : State) : Prop
  /-- The run stops at a refused instruction. -/
  | stopped {r : Refusal} (h : step s = .refused r)
  /-- The transfer ends. -/
  | delivered {t : State} (h : step s = .next t) (ht : p.Delivered b out t)
  /-- The transfer is still in flight, and a turn that does not end it has been taken. -/
  | goesOn {t : State} (h : step s = .next t) (ht : p.InFlight b out t) (hagenda : t.agenda = s.turnsAhead.tail)
      (hturns : ∀ e, p.Completes e → .event e ∈ s.turnsAhead → .event e ∈ s.turnsAhead.tail)

theorem SerialPort.InFlight.progress (h : p.InFlight b out s) : p.Progress b out s := by
  have hcpu (hmove : CpuMoves s s.takeTurn) (hturns : ∀ e, .event e ∈ s.turnsAhead → .event e ∈ s.turnsAhead.tail) :
      p.Progress b out s := by
    have hstep := step_of_cpuMoves s _ hmove
    cases hc : cpuStep s.takeTurn with
    | next t =>
      obtain ⟨ht, hagenda⟩ := h.takeTurn.of_cpuStep hc
      exact .goesOn (hstep.trans hc) ht hagenda fun e _ => hturns e
    | fault r => cases r
    | refused r => exact .stopped (hstep.trans hc)
  match hturn : s.turnsAhead with
  | [] => exact hcpu ⟨.inl hturn, rfl⟩ fun e he => by rw [hturn] at he; cases he
  | .cpu :: rest =>
    refine hcpu ⟨.inr ⟨rest, hturn⟩, rfl⟩ fun e he => ?_
    rw [hturn] at he ⊢
    exact (List.mem_cons.mp he).resolve_left nofun
  | .event e :: rest =>
    have hstep := step_of_event s e rest hturn
    by_cases hc : p.Completes e
    · exact .delivered hstep (hc.delivers h.takeTurn.rstd h.takeTurn.view)
    · have he : ∀ u, e ≠ .assertRSTD u := by
        rintro u rfl
        exact h.noReset u (by rw [turnsAhead_reset s u rest hturn]; exact List.mem_cons_self)
      obtain ⟨ht, hagenda⟩ := h.takeTurn.of_event e he hc
      refine .goesOn hstep ht hagenda fun d hd hmem => ?_
      rw [hturn] at hmem ⊢
      refine (List.mem_cons.mp hmem).resolve_left fun heq => hc ?_
      cases heq
      exact hd

/-! Runs. -/

/-- What a run reaches wherever the transfer goes on, it reaches from here. -/
theorem SerialPort.Progress.eventually (h : p.Progress b out s)
    (hgo : ∀ t, p.InFlight b out t → t.agenda = s.turnsAhead.tail →
      (∀ e, p.Completes e → .event e ∈ s.turnsAhead → .event e ∈ s.turnsAhead.tail) → EventuallyUnlessStopped t (p.Delivered b out)) :
    EventuallyUnlessStopped s (p.Delivered b out) := by
  cases h with
  | stopped hstep => exact eventually_of_refused hstep
  | delivered hstep ht => exact eventually_of_next hstep (eventually_of_holds ht)
  | goesOn hstep ht hagenda hturns => exact eventually_of_next hstep (hgo _ ht hagenda hturns)

/-- Where the transfer's end is among the turns ahead, the run reaches it. -/
theorem SerialPort.InFlight.eventually_of_ahead (turns : List Turn) (h : p.InFlight b out s) (hs : s.turnsAhead = turns) {e : Event}
    (he : p.Completes e) (hmem : .event e ∈ turns) : EventuallyUnlessStopped s (p.Delivered b out) := by
  induction turns generalizing s with
  | nil => cases hmem
  | cons turn rest ih =>
    refine h.progress.eventually fun t ht hagenda hturns => ?_
    rw [hs, List.tail_cons] at hagenda hturns
    have hrest : .event e ∈ rest := hturns e he hmem
    obtain ⟨next, more, hcons⟩ := List.exists_cons_of_ne_nil (List.ne_nil_of_mem hrest)
    have hnotDue := duesNeeded_of_agenda t next more (hagenda.trans hcons)
    exact ih ht ((turnsAhead_of_not_needed t hnotDue).trans hagenda) hrest

/-- Where the agenda is used up the end of the port's transfer is due. -/
theorem SerialPort.InFlight.completion_ahead (h : p.InFlight b out s) (ha : s.agenda = []) :
    ∃ e, p.Completes e ∧ .event e ∈ s.turnsAhead := by
  have hbusy : (p.view s).busy = true := by rw [h.view]
  cases p with
  | uart =>
    have hport : s.portBusy = true := Bool.or_eq_true_iff.mpr (.inl hbusy)
    refine ⟨_, .uart, ?_⟩
    rw [turnsAhead_of_busy s ha hport h.rstd]
    exact List.mem_append_left _ (uartSent_mem_uartDue s hbusy)
  | spi =>
    have hport : s.portBusy = true := Bool.or_eq_true_iff.mpr (.inr hbusy)
    refine ⟨_, .spi (Config.freeByte s.draws), ?_⟩
    rw [turnsAhead_of_busy s ha hport h.rstd]
    exact List.mem_append_right _ (spiDone_mem_spiDue s hbusy)

/-- A transfer in flight ends: at the latest after the agenda, by the turns that are then due. -/
theorem SerialPort.InFlight.eventually_delivered (turns : List Turn) (h : p.InFlight b out s) (hs : s.agenda = turns) :
    EventuallyUnlessStopped s (p.Delivered b out) := by
  induction turns generalizing s with
  | nil =>
    obtain ⟨e, he, hmem⟩ := h.completion_ahead hs
    exact h.eventually_of_ahead _ rfl he hmem
  | cons turn rest ih =>
    refine h.progress.eventually fun t ht hagenda _ => ih ht ?_
    rw [hagenda, turnsAhead_of_not_needed s (duesNeeded_of_agenda s turn rest hs), hs, List.tail_cons]

end Transfer

/-! The two ports. -/

/-- OUT to UDR while idle hands the byte over. -/
theorem execOut_udr (s : State) (a : RegIdx) (h : s.ioaddr = 0x08) (hb : s.io.ubusy = false) :
    exec (.out a) s = .next (s.handUart (s.x a)).advance :=
  execOut_of_ok s _ a .udr (by rw [h]; rfl) (ioWriteAt_udr_idle s _ hb)

/-- OUT to SDR while idle hands the byte over. -/
theorem execOut_sdr (s : State) (a : RegIdx) (h : s.ioaddr = 0x0B) (hb : s.io.sbusy = false) :
    exec (.out a) s = .next (s.handSpi (s.x a)).advance :=
  execOut_of_ok s _ a .sdr (by rw [h]; rfl) (ioWriteAt_sdr_idle s _ hb)

/-- Settles O38: OUT hands the byte over (`execOut_udr`), and the transfer in flight ends (`SerialPort.InFlight.eventually_delivered`). -/
theorem uartTransmitsHandedByte : Obligations.UartTransmitsHandedByte := by
  refine ⟨fun s a h hb hr => ?_, fun s hr hreset hb => ?_, fun s e => (applyEvent_handed e s).1⟩
  · refine ⟨_, execOut_udr s a h hb, rfl, rfl, rfl, pcNext_advance s _ rfl, fun _ => rfl, ?_⟩
    rw [applyEvent_uartSent_busy (s.handUart (s.x a)).advance hr rfl]
    exact ⟨rfl, rfl⟩
  · have hflight : SerialPort.uart.InFlight s.io.utx s.uartOut s := ⟨hr, hreset, by rw [← hb]; rfl⟩
    exact eventually_imp (hflight.eventually_delivered _ rfl) fun t ht => ⟨ht.idle, ht.sent⟩

/-- Settles O40: OUT hands the byte over (`execOut_sdr`), the completion stores the byte received, which the idle port's IN reads, and the
transfer in flight ends (`SerialPort.InFlight.eventually_delivered`). -/
theorem spiTransferRoundTrip : Obligations.SpiTransferRoundTrip := by
  refine ⟨fun s a d b h hb hr => ?_, fun s hr hreset hb => ?_, fun s e => (applyEvent_handed e s).2⟩
  · refine ⟨_, execOut_sdr s a h hb, rfl, rfl, rfl, pcNext_advance s _ rfl, fun _ => rfl, ?_⟩
    have hdone := applyEvent_spiDone_busy (s.handSpi (s.x a)).advance b hr rfl
    obtain ⟨u, hu, hx, honly, -⟩ := (sdrReadIdleAndBusy (applyEvent (.spiDone b) (s.handSpi (s.x a)).advance) d (by rw [hdone]; exact h)).1
      (by rw [hdone])
    refine ⟨by rw [hdone]; rfl, u, hu, fun hd => (hx hd).trans (by rw [hdone]), ?_⟩
    rw [honly, hdone]
    rfl
  · have hflight : SerialPort.spi.InFlight s.io.stx s.spiOut s := ⟨hr, hreset, by rw [← hb]; rfl⟩
    exact eventually_imp (hflight.eventually_delivered _ rfl) fun t ht => ⟨ht.idle, ht.sent⟩

end Sys2Proof.Machine
end

section
/-! The values a reset gives (R261). -/

namespace Sys2Proof.Machine

/-- Settles O53: `enterReset` and `State.reset` write each value of R261's table, whatever was drawn for the others, and r0 reads 0 in
every state (`State.x_zero`). -/
theorem resetGivesStatedValues : Obligations.ResetGivesStatedValues := by
  intro s u t ht
  obtain rfl | rfl := List.mem_pair.mp ht
  case inl =>
    exact ⟨rfl, rfl, rfl, rfl, rfl, rfl, rfl, rfl, rfl, rfl, rfl, (enterReset u s).x_zero⟩
  case inr =>
    exact ⟨rfl, rfl, rfl, rfl, rfl, rfl, rfl, rfl, rfl, rfl, rfl, State.reset.x_zero⟩

end Sys2Proof.Machine
end

section
/-! GETPC with one register in both slots. -/

namespace Sys2Proof.Machine

/-- Settles O18: the run is `execGetpc_same`, a register write of a free value, so the frame is that of `setX` and `advance`. -/
theorem getpcSameRegisterRuns : Obligations.GetpcSameRegisterRuns := by
  intro s a ha
  refine ⟨_, execGetpc_same a s ha, ?_, otherRegsKept_setX s a _, s.setX_ramRead a _, pcNext_advance s _ (s.setX_pc a _)⟩
  rw [State.setX_eq]
  rfl

end Sys2Proof.Machine
end
